-- ==== Sys2Proof/Word.lean ====
section
/-! DEFINITION. The one data width of the machine (spec 00_scope.md R6 XLEN, R13). -/

namespace Sys2Proof

/-- A byte: every register value, memory cell, operand, mask and immediate (R13).
Bit 0 is the least significant bit; `+` and `-` on bytes are the spec's `+8` and `-8` (modulo 256), and a byte
is unsigned unless a rule says otherwise (`toNat` is its value, `zext_N` of R13). -/
abbrev Byte := BitVec 8

end Sys2Proof
end

