-- ==== Sys2Proof/Config.lean ====
section
/-! DEFINITION. The configuration record (10_state.md R20), the block's other implementation parameters
(00_scope.md R6), the types of the HOST port (44_sys.md R220), and the two free values of the model. -/

namespace Sys2Proof

/-- The seven register names of the bank (R25). -/
inductive Reg where
  /-- general register, and the first fixed argument of SYS -/
  | a
  /-- general register, and the second fixed argument of SYS -/
  | b
  /-- general register, and the third fixed argument of SYS -/
  | c
  /-- general register -/
  | d
  /-- the stack pointer, an offset into the RAM window (R28) -/
  | s
  /-- the instruction pointer: the index of the next instruction (R27) -/
  | i
  /-- the flags register (R29) -/
  | f
deriving DecidableEq, Repr

/-- The eight opcode bytes (R20, field group "opcode bytes"). -/
structure OpCodes where
  imm : Byte
  add : Byte
  stk : Byte
  stm : Byte
  ldm : Byte
  cmp : Byte
  jmp : Byte
  sys : Byte
deriving DecidableEq, Repr

/-- The three syscall numbers (R20): `sys.open`, `sys.read`, `sys.write`. -/
structure SysNums where
  openNum  : Byte
  readNum  : Byte
  writeNum : Byte
deriving DecidableEq, Repr

/-- The eight register identifiers (R20); `none` is the sentinel, 0 in a well-formed configuration. -/
structure RegIds where
  a    : Byte
  b    : Byte
  c    : Byte
  d    : Byte
  s    : Byte
  i    : Byte
  f    : Byte
  none : Byte
deriving DecidableEq, Repr

/-- The field order (R20): which of the three instruction bytes holds OPCODE, LEFT and RIGHT. -/
structure FieldOrder where
  op    : Fin 3
  left  : Fin 3
  right : Fin 3
deriving DecidableEq, Repr

/-- The five comparison-flag masks (R20); any five bytes are admitted (R22). -/
structure Masks where
  smaller  : Byte
  bigger   : Byte
  equal    : Byte
  notEqual : Byte
  zero     : Byte
deriving DecidableEq, Repr

/-- The configuration record `cfg`, 27 values, fixed for a session (R20). -/
structure Config where
  op    : OpCodes
  sys   : SysNums
  id    : RegIds
  fo    : FieldOrder
  masks : Masks
deriving DecidableEq, Repr

/-- `REG_ADDR` as a parameter (R6, D1): the place of each register in the bank 0x400-0x406, counted from 0x400. -/
structure RegAddr where
  a : Fin 7
  b : Fin 7
  c : Fin 7
  d : Fin 7
  s : Fin 7
  i : Fin 7
  f : Fin 7
deriving DecidableEq, Repr

/-- The offset of a register's slot in the bank. -/
def RegAddr.slot (m : RegAddr) : Reg → Fin 7
  | .a => m.a
  | .b => m.b
  | .c => m.c
  | .d => m.d
  | .s => m.s
  | .i => m.i
  | .f => m.f

/-- `PATH_BYTES` (R6, R234, D18): how the bytes of an open path are handed to the host. -/
inductive PathBytes where
  /-- the reference value: the raw bytes -/
  | raw
  /-- some other mapping of the bytes 0x80-0xFF, which the spec leaves open (`Config.pathBytes`) -/
  | other
deriving DecidableEq, Repr

/-- The implementation parameters that the spec leaves open, fixed for a session (R6). -/
structure Params where
  /-- `MEM_SIZE`: the number of bytes in the unified buffer (D2) -/
  memSize        : Nat
  /-- `SYS_READ_SETS_DST`: whether SYS read writes its byte count to dst (D10) -/
  sysReadSetsDst : Bool
  /-- `PATH_BYTES` (D18) -/
  pathBytes      : PathBytes
  /-- `REG_ADDR` (D1) -/
  regAddr        : RegAddr
deriving DecidableEq, Repr

/-- A request of the block at the HOST port (R220). Byte arguments stand as their unsigned values: they reach the
host zero-extended (D17). -/
inductive HostRequest where
  /-- `HostOpen(path, flags, mode)`; the path as the host receives it (R234) -/
  | openReq (path : List Byte) (flags mode : Nat)
  /-- `HostRead(fd, n)` -/
  | readReq (fd n : Nat)
  /-- `HostWrite(fd, bytes)` -/
  | writeReq (fd : Nat) (bytes : List Byte)
deriving DecidableEq, Repr

/-- An answer of the host (R220): an error, or a success. One shape serves the three requests: a write or open takes
`num` (a count, a descriptor), a read takes `data`; `HostPort.lean` keeps the answer within R220's bounds. -/
inductive HostAnswer where
  | err
  | ok (num : Nat) (data : List Byte)
deriving DecidableEq, Repr, Inhabited

/-- One entry of the host's script: what the host does at one request. -/
inductive HostReply where
  /-- the host answers -/
  | answer (a : HostAnswer)
  /-- the host never answers: the session stalls (R285, D24) -/
  | never
deriving DecidableEq, Repr

/-- FREE VALUE (R220, D16, log entry 2). The host's answer to the last request of the history given, when the state
scripts none. Nothing constrains it but R220's bounds, which the port applies. -/
opaque Config.hostOracle : List HostRequest → HostAnswer

/-- FREE VALUE (R234, D18, log entry 3). What the host receives for a path that holds a byte 0x80-0xFF, when
`PATH_BYTES` is not its reference value. -/
opaque Config.pathBytes : List Byte → List Byte

/-- The test configuration TCFG (92_eei_decisions.md D25): the configuration of the reference session. -/
def Config.tcfg : Config where
  op := { imm := 0x10, add := 0x11, stk := 0x12, stm := 0x13, ldm := 0x14, cmp := 0x15, jmp := 0x16, sys := 0x17 }
  sys := { openNum := 0x01, readNum := 0x02, writeNum := 0x03 }
  id := { a := 0x01, b := 0x02, c := 0x03, d := 0x04, s := 0x05, i := 0x06, f := 0x07, none := 0x00 }
  fo := { op := 0, left := 1, right := 2 }
  masks := { smaller := 0x01, bigger := 0x02, equal := 0x04, notEqual := 0x08, zero := 0x10 }

/-- TCFG-P (D25): TCFG with field order (2, 0, 1). -/
def Config.tcfgP : Config := { Config.tcfg with fo := { op := 2, left := 0, right := 1 } }

/-- The reference values of the open parameters (R6): MEM_SIZE 0x407, SYS_READ_SETS_DST true, raw path bytes, and
the bank in listing order. -/
def Params.reference : Params where
  memSize := 0x407
  sysReadSetsDst := true
  pathBytes := .raw
  regAddr := { a := 0, b := 1, c := 2, d := 3, s := 4, i := 5, f := 6 }

end Sys2Proof
end

