-- ==== Sys2Proof/Syntax.lean ====
section
/-! DEFINITION. Instructions as syntax: the three bytes, the eight kinds of the decoder (30_encoding.md R82), and one
constructor of `Instr` for each row of the opcode table. -/

namespace Sys2Proof

/-- The instruction bytes `w[0], w[1], w[2]` in buffer order (R80). -/
structure InstrBytes where
  w0 : Byte
  w1 : Byte
  w2 : Byte
deriving DecidableEq, Repr

/-- The eight operation kinds (R1, R82). -/
inductive OpKind where
  | imm
  | add
  | stk
  | stm
  | ldm
  | cmp
  | jmp
  | sys
deriving DecidableEq, Repr

/-- What the decoder of R82 answers: one kind with two raw operand bytes. -/
structure Decoded where
  kind  : OpKind
  left  : Byte
  right : Byte
deriving DecidableEq, Repr

/-- The instructions, one constructor per row of the opcode table. Operands are raw bytes: the decoder checks none of
them (R82) and a register identifier is resolved at execute time (R87). The table has four rows for the opcode SYS: the
three known syscall numbers have constructors of their own, and `sys` is the row for every number (as decoded, for a
number that is none of the three). -/
inductive Instr where
  /-- IMM (R140): LEFT = dst, RIGHT = val -/
  | imm (dst val : Byte)
  /-- ADD (R142): LEFT = dst, RIGHT = src -/
  | add (dst src : Byte)
  /-- STK (R160): LEFT = pop, RIGHT = push -/
  | stk (pop push : Byte)
  /-- STM (R166): LEFT = dst, RIGHT = src -/
  | stm (dst src : Byte)
  /-- LDM (R168): LEFT = dst, RIGHT = src -/
  | ldm (dst src : Byte)
  /-- CMP (R190): LEFT = left, RIGHT = right -/
  | cmp (left right : Byte)
  /-- JMP (R195): LEFT = flags, RIGHT = dst -/
  | jmp (flags dst : Byte)
  /-- SYS (R221): LEFT = num, RIGHT = dst -/
  | sys (num dst : Byte)
  /-- SYS.write (R223): LEFT = `cfg.sys.write`, RIGHT = dst -/
  | sysWrite (dst : Byte)
  /-- SYS.read (R226): LEFT = `cfg.sys.read`, RIGHT = dst -/
  | sysRead (dst : Byte)
  /-- SYS.open (R228): LEFT = `cfg.sys.open`, RIGHT = dst -/
  | sysOpen (dst : Byte)
deriving DecidableEq, Repr

end Sys2Proof
end

