-- ==== Sys2Proof/WellFormed.lean ====
section
/-! DEFINITION. The well-formedness checks: of the configuration (10_state.md R21, R22), of the parameters
(00_scope.md R6), and of an instruction as syntax. -/

namespace Sys2Proof

/-- The eight opcode bytes in R20's order. -/
def OpCodes.toList (o : OpCodes) : List Byte := [o.imm, o.add, o.stk, o.stm, o.ldm, o.cmp, o.jmp, o.sys]

/-- The identifiers of the seven registers, `none` left out. -/
def RegIds.toList (r : RegIds) : List Byte := [r.a, r.b, r.c, r.d, r.s, r.i, r.f]

/-- The three syscall numbers in R20's order. -/
def SysNums.toList (n : SysNums) : List Byte := [n.openNum, n.readNum, n.writeNum]

/-- The three positions of the field order. -/
def FieldOrder.toList (fo : FieldOrder) : List (Fin 3) := [fo.op, fo.left, fo.right]

/-- The seven bank slots in listing order. -/
def RegAddr.toList (m : RegAddr) : List (Fin 7) := [m.a, m.b, m.c, m.d, m.s, m.i, m.f]

/-- W1: the eight opcode bytes are pairwise distinct. -/
abbrev Config.OpcodesDistinct (c : Config) : Prop := c.op.toList.Nodup

/-- W2: the seven identifiers are pairwise distinct. -/
abbrev Config.IdsDistinct (c : Config) : Prop := c.id.toList.Nodup

/-- W3: each of the seven identifiers is nonzero. -/
abbrev Config.IdsNonzero (c : Config) : Prop := ∀ v ∈ c.id.toList, v ≠ 0

/-- W4: `id.none = 0`. -/
abbrev Config.NoneIsZero (c : Config) : Prop := c.id.none = 0

/-- W5: the field order is a permutation of {0, 1, 2}. -/
abbrev FieldOrder.IsPermutation (fo : FieldOrder) : Prop := fo.toList.Nodup

/-- W6 (D11): the three syscall numbers are pairwise distinct. -/
abbrev Config.SysNumsDistinct (c : Config) : Prop := c.sys.toList.Nodup

/-- A well-formed configuration: W1 to W6 (R21, R22). The masks are unconstrained. -/
abbrev Config.WF (c : Config) : Prop :=
  c.OpcodesDistinct ∧ c.IdsDistinct ∧ c.IdsNonzero ∧ c.NoneIsZero ∧ c.fo.IsPermutation ∧ c.SysNumsDistinct

/-- `REG_ADDR` is a bijection onto the bank (D1). -/
abbrev RegAddr.IsBijection (m : RegAddr) : Prop := m.toList.Nodup

/-- The parameters a session can be started with: the bank mapping is a bijection (D1) and a 16-bit index reaches the
whole buffer (R6, R50). The lower bound of MEM_SIZE is not asked here: with a smaller buffer the accesses fault as R54
says. -/
abbrev Params.Launchable (p : Params) : Prop := p.regAddr.IsBijection ∧ p.memSize ≤ 0x10000

/-- The parameters R6 admits: launchable, and the register bank lies in the buffer (0x407 <= MEM_SIZE). -/
abbrev Params.WF (p : Params) : Prop := p.Launchable ∧ 0x407 ≤ p.memSize

/-- A well-formed instruction under given syscall numbers: the row SYS stands for the numbers that have no row of
their own. Every other instruction is well-formed: any operand byte decodes (R82). -/
abbrev Instr.WF (n : SysNums) : Instr → Prop
  | .sys num _ => num ∉ n.toList
  | .imm _ _ => True
  | .add _ _ => True
  | .stk _ _ => True
  | .stm _ _ => True
  | .ldm _ _ => True
  | .cmp _ _ => True
  | .jmp _ _ => True
  | .sysWrite _ => True
  | .sysRead _ => True
  | .sysOpen _ => True

end Sys2Proof
end

