-- ==== Sys2Proof/Machine/State.lean ====
section
/-! DEFINITION. The machine's state as plain data (10_state.md R33), its fault classes (60_exceptions.md R260), the
stops of the model, and the state of the reference session right after reset. -/

namespace Sys2Proof.Machine

/-- The three reasons of the catch-all class (R260, 5.1 to 5.3), with the info each records. -/
inductive GenericReason where
  /-- 5.1: the step's increment of i overflows; the info is old_ip = 255 (R112) -/
  | ipOverflow
  /-- 5.2: `read_string` found no zero byte up to offset 255; the info is the start offset (R55) -/
  | unterminatedString (start : Byte)
  /-- 5.3: the host's descriptor does not fit in 8 bits; the info is the descriptor (R228) -/
  | descriptorTooWide (desc : Nat)
deriving DecidableEq, Repr

/-- The five fault classes of the block, each with the info it records (R260). These are the spec's faults: raising one
is an effect the spec describes (R261), so the model takes it as a NEXT state whose status is `faulted`. -/
inductive FaultClass where
  /-- 1: an identifier byte names no register (R24) -/
  | unknownRegister (v : Byte)
  /-- 2: the OPCODE byte is not configured (R82) -/
  | unrecognizedOpcode (opc : Byte)
  /-- 3: an access leaves the buffer; the info is the first address of the access (R14, R54) -/
  | addressOutOfRange (addr : Nat)
  /-- 4: the LEFT byte of SYS is no configured syscall number (R221) -/
  | unrecognizedSyscall (num : Byte)
  /-- 5: the catch-all -/
  | generic (reason : GenericReason)
deriving DecidableEq, Repr

/-- The session status (R33, R261): `running`, or `faulted(class, info, old_ip)`. -/
inductive Status where
  | running
  | faulted (f : FaultClass) (oldIp : Byte)
deriving DecidableEq, Repr

/-- Why a step has no next state although its instruction has a meaning: the spec's two stuck states. -/
inductive Fault where
  /-- Raised by `step` in the status `faulted`: no step is defined from it (R110, D13). It carries what the status
  records. Safe: the model stops where the block is stopped for good. -/
  | sessionFaulted (f : FaultClass) (oldIp : Byte)
  /-- Raised by SYS write, read and open when the host's script says that the host never answers: the session stalls
  and the block has no step (R285, D24). Safe: nothing is claimed of a stalled session. -/
  | hostNeverAnswers
deriving DecidableEq, Repr

/-- Why the model gives a state no step at all. -/
inductive Refusal where
  /-- Raised by `exec` for an instruction without a meaning. Safe. No arm of this model uses it. -/
  | notModelled (mnemonic : String)
  /-- Raised by `step` when the configuration breaks one of W1 to W6: no step is defined (R23, D12). Safe. -/
  | illFormedConfig
  /-- Raised by `step` when the parameters are outside R6's: REG_ADDR is no bijection onto the bank, or MEM_SIZE is
  above 0x10000. Safe: no such block exists. -/
  | illFormedParams
deriving DecidableEq, Repr

/-- The unified buffer (R50) as (address, byte) pairs in one canonical form: addresses strictly rising, and no entry
equal to what an unlisted address reads as (`unlistedByte`). -/
abbrev Memory := List Host.Cell

/-- What an unlisted address reads as: the reference FILL 0x00 (R6, D3, log entry 4). -/
def unlistedByte : Byte := 0x00

/-- The canonical form of a memory. -/
abbrev Memory.wf (m : Memory) : Prop :=
  List.Pairwise (fun p q : Host.Cell => p.1 < q.1) m ∧ ∀ p ∈ m, p.2 ≠ unlistedByte

/-- The state of the block (R33): the unified buffer, which holds the seven registers at their bank addresses (R26),
and the session status; the configuration and the parameters, fixed for the session (R20, R34); and the two ends of the
HOST port (R220): the answers the host is going to give, and the requests the block has made. -/
structure State where
  /-- the configuration record (R20) -/
  cfg        : Config
  /-- the open implementation parameters (R6) -/
  params     : Params
  /-- the unified buffer: code region, RAM window, register bank (R50, R51) -/
  mem        : Memory
  /-- running or faulted (R33) -/
  status     : Status
  /-- what the host will do at the next requests, in order; past its end the answers are free (log entry 2) -/
  hostScript : List HostReply
  /-- the requests made at the HOST port in this session, oldest first -/
  hostLog    : List HostRequest
deriving DecidableEq, Repr

/-- The reference session right after its start (R300, R34): configuration TCFG, reference parameters, an empty image
and FILL 0x00, so that every register is 0 and the entry point is index 0 (R301). Log entries 1, 4 and 5. -/
def State.reset : State where
  cfg := Config.tcfg
  params := Params.reference
  mem := []
  status := .running
  hostScript := []
  hostLog := []

end Sys2Proof.Machine
end

