-- ==== Sys2Proof/Machine/Ops.lean ====
section
/-! DEFINITION. The named operations over memory and registers (00_scope.md R14, 20_memory.md R53, R54), and the one
shared way a fault is taken (60_exceptions.md R261). -/

namespace Sys2Proof.Machine

/-! ## The buffer as data -/

/-- The byte at an address: the listed one, else what an unlisted address reads as. -/
def Memory.read : Memory → Nat → Byte
  | [], _ => unlistedByte
  | (k, v) :: rest, a => if k = a then v else Memory.read rest a

/-- The memory without any entry for an address. -/
def Memory.erase : Memory → Nat → Memory
  | [], _ => []
  | (k, v) :: rest, a => if k = a then Memory.erase rest a else (k, v) :: Memory.erase rest a

/-- The memory with an entry put before the first higher address. -/
def Memory.insert : Memory → Nat → Byte → Memory
  | [], a, v => [(a, v)]
  | (k, u) :: rest, a, v => if a < k then (a, v) :: (k, u) :: rest else (k, u) :: Memory.insert rest a v

/-- The memory after one byte is written; writing what an unlisted address reads as removes the entry. -/
def Memory.write (m : Memory) (a : Nat) (v : Byte) : Memory :=
  if v = unlistedByte then m.erase a else (m.erase a).insert a v

/-- The `n` bytes from an address up. -/
def Memory.readBytes (m : Memory) (a : Nat) : Nat → List Byte
  | 0 => []
  | n + 1 => m.read a :: m.readBytes (a + 1) n

/-- The memory after bytes are written from an address up, one at a time and in ascending order. -/
def Memory.writeBytes (m : Memory) (a : Nat) : List Byte → Memory
  | [] => m
  | v :: rest => (m.write a v).writeBytes (a + 1) rest

/-- The memory that holds given bytes from an address up and nothing else, in canonical form. -/
def Memory.ofBytes (a : Nat) : List Byte → Memory
  | [] => []
  | v :: rest => if v = unlistedByte then Memory.ofBytes (a + 1) rest else (a, v) :: Memory.ofBytes (a + 1) rest

/-! ## Registers and the RAM window as places of the buffer -/

/-- The base of the RAM window (R6, R51). -/
def ramBase : Nat := 0x300

/-- The base of the register bank (R6, R51). -/
def bankBase : Nat := 0x400

/-- `REG_ADDR(r)`: the bank address of a register (R6, D1). -/
def State.regAddress (s : State) (r : Reg) : Nat := bankBase + (s.params.regAddr.slot r).val

/-- The value of a register: the byte at its bank address (R26). -/
def State.reg (s : State) (r : Reg) : Byte := s.mem.read (s.regAddress r)

/-- The state with a register's byte replaced. -/
def State.setReg (s : State) (r : Reg) (v : Byte) : State := { s with mem := s.mem.write (s.regAddress r) v }

/-- The address of a RAM-window offset (R53): the offset is a byte, so the address is in 0x300-0x3FF. -/
def ramAddress (o : Byte) : Nat := ramBase + o.toNat

/-- `ram[o]`: the byte of the RAM window at an offset (R53). -/
def State.ram (s : State) (o : Byte) : Byte := s.mem.read (ramAddress o)

/-- The state with a RAM-window byte replaced. -/
def State.setRam (s : State) (o v : Byte) : State := { s with mem := s.mem.write (ramAddress o) v }

/-! ## Actions: what an instruction does, in the order of its pseudocode -/

/-- How an action ends before its end. -/
inductive Stop where
  /-- `raise F(info)` (R14) -/
  | raised (f : FaultClass)
  /-- the host does not answer (R285) -/
  | stalled
deriving DecidableEq, Repr

/-- A piece of pseudocode (R14): it runs top to bottom over the state, gives a value or stops, and a stop keeps every
write made before it (R60). -/
abbrev Act (α : Type) := EStateM Stop State α

/-- `raise F(info)` (R14). -/
def raise {α : Type} (f : FaultClass) : Act α := fun s => .error (.raised f) s

/-- A value computed from the state as it stands. -/
def look {α : Type} (g : State → α) : Act α := fun s => .ok (g s) s

/-- A change of the state as a whole. -/
def update (g : State → State) : Act Unit := fun s => .ok () (g s)

/-- The range check of every access (R54): `n` bytes at `addr` lie in the buffer iff `addr + n <= MEM_SIZE`. -/
def checkRange (addr n : Nat) : Act Unit := fun s =>
  if addr + n ≤ s.params.memSize then .ok () s else .error (.raised (.addressOutOfRange addr)) s

/-- `MemRead(addr, n)` (R14). -/
def memRead (addr n : Nat) : Act (List Byte) := do
  checkRange addr n
  look fun s => s.mem.readBytes addr n

/-- `MemWrite(addr, n, v)` for the bytes `v` (R14): it writes nothing when it faults. -/
def memWrite (addr : Nat) (v : List Byte) : Act Unit := do
  checkRange addr v.length
  update fun s => { s with mem := s.mem.writeBytes addr v }

/-- `x[r]` (R14, R26). -/
def readReg (r : Reg) : Act Byte := fun s =>
  if s.regAddress r + 1 ≤ s.params.memSize then .ok (s.reg r) s
  else .error (.raised (.addressOutOfRange (s.regAddress r))) s

/-- `x[r] <- v` (R14, R26). -/
def writeReg (r : Reg) (v : Byte) : Act Unit := fun s =>
  if s.regAddress r + 1 ≤ s.params.memSize then .ok () (s.setReg r v)
  else .error (.raised (.addressOutOfRange (s.regAddress r))) s

/-- `ram[o]` (R53). -/
def readRam (o : Byte) : Act Byte := fun s =>
  if ramAddress o + 1 ≤ s.params.memSize then .ok (s.ram o) s
  else .error (.raised (.addressOutOfRange (ramAddress o))) s

/-- `ram[o] <- v` (R53). -/
def writeRam (o v : Byte) : Act Unit := fun s =>
  if ramAddress o + 1 ≤ s.params.memSize then .ok () (s.setRam o v)
  else .error (.raised (.addressOutOfRange (ramAddress o))) s

/-! ## Taking a fault -/

/-- TAKING A FAULT (R261): the status becomes `faulted(class, info, old_ip)`, and every write made earlier in the step
stays. Nothing else changes: no register or memory byte saves anything and no handler is entered (R271). There is no
return from a fault (R272). -/
def takeFault (f : FaultClass) (oldIp : Byte) (s : State) : State := { s with status := .faulted f oldIp }

/-- The end of an action inside the step of the instruction with index `oldIp`: a normal end is the next state, a raise
takes its fault, a stalled host call has no next state (R116, R285). -/
def settle (oldIp : Byte) : EStateM.Result Stop State Unit → Host.Outcome State Fault Refusal
  | .ok _ s => .next s
  | .error (.raised f) s => .next (takeFault f oldIp s)
  | .error .stalled _ => .fault .hostNeverAnswers

/-- The index of the instruction being executed. While an instruction runs, x[i] reads old_ip + 1 (R27), so before its
first write old_ip is x[i] -8 1 (log entry 6). -/
def State.currentIndex (s : State) : Byte := s.reg .i - 1

/-- Stage 5 of the step (R115) for one instruction's pseudocode. -/
def runInstr (act : Act Unit) (s : State) : Host.Outcome State Fault Refusal := settle s.currentIndex (act s)

/-! ## Fault codes (R260, D14): the spec's own numbering -/

/-- The class code, 1 to 5. -/
def FaultClass.code : FaultClass → Nat
  | .unknownRegister _ => 1
  | .unrecognizedOpcode _ => 2
  | .addressOutOfRange _ => 3
  | .unrecognizedSyscall _ => 4
  | .generic _ => 5

/-- The sub-reason of class 5, 1 to 3; the other classes have none. -/
def FaultClass.subReason : FaultClass → Option Nat
  | .unknownRegister _ => none
  | .unrecognizedOpcode _ => none
  | .addressOutOfRange _ => none
  | .unrecognizedSyscall _ => none
  | .generic .ipOverflow => some 1
  | .generic (.unterminatedString _) => some 2
  | .generic (.descriptorTooWide _) => some 3

/-- The info a fault records. -/
def FaultClass.info : FaultClass → Nat
  | .unknownRegister v => v.toNat
  | .unrecognizedOpcode opc => opc.toNat
  | .addressOutOfRange addr => addr
  | .unrecognizedSyscall num => num.toNat
  | .generic .ipOverflow => 255
  | .generic (.unterminatedString start) => start.toNat
  | .generic (.descriptorTooWide desc) => desc

end Sys2Proof.Machine
end

