-- ==== Sys2Proof/Machine/Operands.lean ====
section
/-! DEFINITION. Register-id operands (10_state.md R24, 30_encoding.md R85, R87). Literal operands (IMM val, JMP flags,
SYS num) need no operation: they are used exactly as the byte stands (R86). -/

namespace Sys2Proof.Machine

/-- The register an identifier byte names (R24); W2 makes the order of the tests immaterial. The sentinel `none` and
every unknown byte name no register (D5). -/
def regOfId (id : RegIds) (v : Byte) : Option Reg :=
  if v = id.a then some .a
  else if v = id.b then some .b
  else if v = id.c then some .c
  else if v = id.d then some .d
  else if v = id.s then some .s
  else if v = id.i then some .i
  else if v = id.f then some .f
  else none

/-- The register an operand byte names under the state's configuration. -/
def State.regOf (s : State) (v : Byte) : Option Reg := regOfId s.cfg.id v

/-- `reg(v)` (R24): the register named, or `raise UnknownRegister(v)`. -/
def resolve (v : Byte) : Act Reg := fun s =>
  match s.regOf v with
  | some r => .ok r s
  | none => .error (.raised (.unknownRegister v)) s

/-- `x[reg(v)]` (R14). -/
def readId (v : Byte) : Act Byte := do
  let r ← resolve v
  readReg r

/-- `x[reg(v)] <- v'` (R14). -/
def writeId (v v' : Byte) : Act Unit := do
  let r ← resolve v
  writeReg r v'

end Sys2Proof.Machine
end

