-- ==== Sys2Proof/Machine/Alu.lean ====
section
/-! DEFINITION. The register ALU instructions IMM and ADD (41_imm_add.md). -/

namespace Sys2Proof.Machine

/-- IMM (R140): x[reg(l)] <- r. -/
def execImm (dst val : Byte) (s : State) : Host.Outcome State Fault Refusal :=
  runInstr (writeId dst val) s

/-- ADD (R142): LEFT is resolved before RIGHT (D23); the sum is modulo 256 and sets no flag. -/
def execAdd (dst src : Byte) (s : State) : Host.Outcome State Fault Refusal :=
  runInstr (do
    let rd ← resolve dst
    let sv ← readId src
    let dv ← readReg rd
    writeReg rd (dv + sv)) s

end Sys2Proof.Machine
end

