-- ==== Sys2Proof/Machine/Flags.lean ====
section
/-! DEFINITION. The flag byte of CMP (43_compare_branch.md R190, R191) and the branch evaluator of JMP (R195, R196).
No other instruction computes flags (R30). -/

namespace Sys2Proof.Machine

/-- A mask if its condition holds, else no bit. -/
def maskIf (cond : Bool) (mask : Byte) : Byte := if cond then mask else 0x00

/-- The flag byte of CMP (R190): the OR of the masks whose conditions hold; both order comparisons are unsigned
(R191). -/
def cmpFlags (m : Masks) (lv rv : Byte) : Byte :=
  maskIf (lv == 0x00 && rv == 0x00) m.zero ||| maskIf (lv.ult rv) m.smaller ||| maskIf (rv.ult lv) m.bigger
    ||| maskIf (lv == rv) m.equal ||| maskIf (lv != rv) m.notEqual

/-- The branch evaluator (R195, R196): taken iff the mask is 0 or shares a bit with f. -/
def jumpTaken (fl mask : Byte) : Bool := mask == 0x00 || (fl &&& mask) != 0x00

end Sys2Proof.Machine
end

