-- ==== Sys2Proof/Machine/CompareBranch.lean ====
section
/-! DEFINITION. Compare and branch: CMP and JMP (43_compare_branch.md). -/

namespace Sys2Proof.Machine

/-- CMP (R190): f is overwritten with the flag byte of the two registers' values, LEFT resolved before RIGHT (D23). -/
def execCmp (left right : Byte) (s : State) : Host.Outcome State Fault Refusal :=
  runInstr (do
    let lv ← readId left
    let rv ← readId right
    writeReg .f (cmpFlags s.cfg.masks lv rv)) s

/-- JMP (R195): when taken, x[i] <- x[reg(r)]; when not taken, no effect, and nothing is resolved (D8). -/
def execJmp (flags dst : Byte) (s : State) : Host.Outcome State Fault Refusal :=
  runInstr (do
    let fl ← readReg .f
    if jumpTaken fl flags then do
      let target ← readId dst
      writeReg .i target
    else pure ()) s

end Sys2Proof.Machine
end

