-- ==== Sys2Proof/Machine/StackMemory.lean ====
section
/-! DEFINITION. The stack and memory instructions STK, STM and LDM (42_stack_memory.md). -/

namespace Sys2Proof.Machine

/-- The push half of STK (R160): s is incremented before the pushed register is resolved and read (D9), so a bad
register leaves s incremented. -/
def stkPush (push : Byte) : Act Unit :=
  if push = 0x00 then pure ()
  else do
    let sp ← readReg .s
    writeReg .s (sp + 1)
    let v ← readId push
    let top ← readReg .s
    writeRam top v

/-- The pop half of STK (R160): s is decremented after the popped register is written (D9), so a pop into s decrements
the popped byte. -/
def stkPop (pop : Byte) : Act Unit :=
  if pop = 0x00 then pure ()
  else do
    let top ← readReg .s
    let v ← readRam top
    writeId pop v
    let sp ← readReg .s
    writeReg .s (sp - 1)

/-- STK (R160): the push half, then the pop half; `none` (0) skips a half before any resolution. -/
def execStk (pop push : Byte) (s : State) : Host.Outcome State Fault Refusal :=
  runInstr (do
    stkPush push
    stkPop pop) s

/-- STM (R166): ram[x[reg(l)]] <- x[reg(r)], LEFT resolved before RIGHT (D23). -/
def execStm (dst src : Byte) (s : State) : Host.Outcome State Fault Refusal :=
  runInstr (do
    let o ← readId dst
    let v ← readId src
    writeRam o v) s

/-- LDM (R168): x[reg(l)] <- ram[x[reg(r)]], RIGHT resolved before LEFT (D23). -/
def execLdm (dst src : Byte) (s : State) : Host.Outcome State Fault Refusal :=
  runInstr (do
    let o ← readId src
    let v ← readRam o
    writeId dst v) s

end Sys2Proof.Machine
end

