-- ==== Sys2Proof/Machine/HostPort.lean ====
section
/-! DEFINITION. The HOST port and the three syscalls up to it (44_sys.md R220-R234): the requests, the answers within
R220's bounds, the clamp, `read_string`, and the pseudocode of SYS write, read and open. -/

namespace Sys2Proof.Machine

/-! ## The port -/

/-- What the host answers to a request (R220): the next entry of the script, or, past its end, a free value that may
depend on the whole history of requests (log entry 2). `none`: the host never answers (R285). -/
def State.hostAnswerTo (s : State) (req : HostRequest) : Option HostAnswer :=
  match s.hostScript with
  | [] => some (Config.hostOracle (s.hostLog ++ [req]))
  | .answer a :: _ => some a
  | .never :: _ => none

/-- The state after a request was answered: the request is in the history and its entry of the script is used. The host
never writes the buffer (R230). -/
def State.afterHostCall (s : State) (req : HostRequest) : State :=
  { s with hostScript := s.hostScript.tail, hostLog := s.hostLog ++ [req] }

/-- One blocking transaction at the port (R220). -/
def hostCall (req : HostRequest) : Act HostAnswer := fun s =>
  match s.hostAnswerTo req with
  | some a => .ok a (s.afterHostCall req)
  | none => .error .stalled s

/-- A count within R220's bound: at most the length of the bytes sent (D16). -/
def boundCount (len num : Nat) : Nat := min num len

/-- Received data within R220's bound: at most the `n` bytes asked for (D16). -/
def boundData (n : Nat) (data : List Byte) : List Byte := data.take n

/-- `HostWrite(fd, bytes)` (R220): `some cnt` for Ok(cnt), `none` for Err. -/
def hostWrite (fd : Byte) (bytes : List Byte) : Act (Option Nat) := do
  let a ← hostCall (.writeReq fd.toNat bytes)
  match a with
  | .err => pure none
  | .ok num _ => pure (some (boundCount bytes.length num))

/-- `HostRead(fd, n)` (R220): `some data` for Ok(data), `none` for Err. -/
def hostRead (fd : Byte) (n : Nat) : Act (Option (List Byte)) := do
  let a ← hostCall (.readReq fd.toNat n)
  match a with
  | .err => pure none
  | .ok _ data => pure (some (boundData n data))

/-- The path as the host receives it (R234): a path of bytes 0x01-0x7F is itself under every reading; for others the
parameter PATH_BYTES says (log entry 3). -/
def hostPath (p : PathBytes) (path : List Byte) : List Byte :=
  match p with
  | .raw => path
  | .other => if path.all (fun b => b.ult 0x80) then path else Config.pathBytes path

/-- `HostOpen(path, flags, mode)` (R220): `some desc` for Ok(desc), `none` for Err. -/
def hostOpen (path : List Byte) (flags mode : Byte) : Act (Option Nat) := do
  let sent ← look fun s => hostPath s.params.pathBytes path
  let a ← hostCall (.openReq sent flags.toNat mode.toNat)
  match a with
  | .err => pure none
  | .ok num _ => pure (some num)

/-! ## RAM slices and strings -/

/-- The clamp of read and write (R222): the length cut to what the RAM window holds from the offset. -/
def clamp (off len : Byte) : Nat := min len.toNat (256 - off.toNat)

/-- `ram[off] ++ ... ++ ram[off + n - 1]`, one byte at a time (R223). -/
def readRamSlice (off : Byte) : Nat → Act (List Byte)
  | 0 => pure []
  | n + 1 => do
    let b ← readRam off
    let rest ← readRamSlice (off + 1) n
    pure (b :: rest)

/-- `for k: ram[off + k] <- data[k]`, one byte at a time, ascending (R226). -/
def writeRamSlice (off : Byte) : List Byte → Act Unit
  | [] => pure ()
  | v :: rest => do
    writeRam off v
    writeRamSlice (off + 1) rest

/-- The loop of `read_string` (R55) with `fuel` offsets left from `off` to the end of the window. -/
def readStringFrom (start off : Byte) : Nat → Act (List Byte)
  | 0 => raise (.generic (.unterminatedString start))
  | fuel + 1 => do
    let b ← readRam off
    if b = 0x00 then pure []
    else do
      let rest ← readStringFrom start (off + 1) fuel
      pure (b :: rest)

/-- `read_string(off)` (R55): the bytes from `off` up to a zero byte; it fails if no zero byte stands at an offset from
`off` to 255, and never wraps to offset 0. -/
def readString (off : Byte) : Act (List Byte) := readStringFrom off off (256 - off.toNat)

/-! ## The syscalls -/

/-- A byte count narrowed to 8 bits: taken modulo 256 (R223, R226, R232). -/
def narrowCount (n : Nat) : Byte := BitVec.ofNat 8 n

/-- A byte count stored into dst, narrowed (R223, R226). -/
def storeCount (dst : Byte) (n : Nat) : Act Unit := writeId dst (narrowCount n)

/-- SYS write (R223): on success the count goes to dst; on host failure nothing changes (R231). -/
def sysWriteAct (dst : Byte) : Act Unit := do
  let fd ← readReg .a
  let off ← readReg .b
  let len ← readReg .c
  let buf ← readRamSlice off (clamp off len)
  let res ← hostWrite fd buf
  match res with
  | none => pure ()
  | some cnt => storeCount dst cnt

/-- The end of SYS read (R226, D10): with SYS_READ_SETS_DST the count goes to dst; without it dst is not resolved. -/
def storeReadCount (dst : Byte) (m : Nat) : Act Unit := fun s =>
  if s.params.sysReadSetsDst then storeCount dst m s else .ok () s

/-- SYS read (R226): on success the received bytes go to RAM and, with SYS_READ_SETS_DST, their count to dst; on host
failure nothing changes (R231). -/
def sysReadAct (dst : Byte) : Act Unit := do
  let fd ← readReg .a
  let off ← readReg .b
  let len ← readReg .c
  let res ← hostRead fd (clamp off len)
  match res with
  | none => pure ()
  | some data => do
    writeRamSlice off data
    storeReadCount dst data.length

/-- The end of SYS open (R228, R232): a descriptor that does not fit in 8 bits is a fault, before dst is resolved. -/
def storeDescriptor (dst : Byte) (desc : Nat) : Act Unit :=
  if desc > 255 then raise (.generic (.descriptorTooWide desc)) else writeId dst (BitVec.ofNat 8 desc)

/-- SYS open (R228): on host failure nothing changes (R231). -/
def sysOpenAct (dst : Byte) : Act Unit := do
  let start ← readReg .a
  let path ← readString start
  let flags ← readReg .b
  let mode ← readReg .c
  let res ← hostOpen path flags mode
  match res with
  | none => pure ()
  | some desc => storeDescriptor dst desc

/-- SYS for every number (R221): the dispatch on the configured syscall numbers; any other number faults before any
register is read. -/
def sysAct (num dst : Byte) : Act Unit := fun s =>
  if num = s.cfg.sys.writeNum then sysWriteAct dst s
  else if num = s.cfg.sys.readNum then sysReadAct dst s
  else if num = s.cfg.sys.openNum then sysOpenAct dst s
  else raise (.unrecognizedSyscall num) s

end Sys2Proof.Machine
end

