-- ==== Sys2Proof/Machine/SystemCalls.lean ====
section
/-! DEFINITION. The meanings of SYS and of its three sub-operations (44_sys.md R221, R223, R226, R228). -/

namespace Sys2Proof.Machine

/-- SYS (R221): dispatch on the syscall number. -/
def execSys (num dst : Byte) (s : State) : Host.Outcome State Fault Refusal := runInstr (sysAct num dst) s

/-- SYS.write (R223). -/
def execSysWrite (dst : Byte) (s : State) : Host.Outcome State Fault Refusal := runInstr (sysWriteAct dst) s

/-- SYS.read (R226). -/
def execSysRead (dst : Byte) (s : State) : Host.Outcome State Fault Refusal := runInstr (sysReadAct dst) s

/-- SYS.open (R228). -/
def execSysOpen (dst : Byte) (s : State) : Host.Outcome State Fault Refusal := runInstr (sysOpenAct dst) s

end Sys2Proof.Machine
end

