-- ==== Sys2Proof/Machine/Dispatch.lean ====
section
/-! DEFINITION. Stage 5 of the step (40_step_cycle.md R115): one arm per instruction. -/

namespace Sys2Proof.Machine

def exec (i : Instr) (s : State) : Host.Outcome State Fault Refusal :=
  match i with
  | .imm dst val => Sys2Proof.Machine.execImm dst val s
  | .add dst src => Sys2Proof.Machine.execAdd dst src s
  | .stk pop push => Sys2Proof.Machine.execStk pop push s
  | .stm dst src => Sys2Proof.Machine.execStm dst src s
  | .ldm dst src => Sys2Proof.Machine.execLdm dst src s
  | .cmp left right => Sys2Proof.Machine.execCmp left right s
  | .jmp flags dst => Sys2Proof.Machine.execJmp flags dst s
  | .sys num dst => Sys2Proof.Machine.execSys num dst s
  | .sysWrite dst => Sys2Proof.Machine.execSysWrite dst s
  | .sysRead dst => Sys2Proof.Machine.execSysRead dst s
  | .sysOpen dst => Sys2Proof.Machine.execSysOpen dst s

end Sys2Proof.Machine
end

