-- ==== Sys2Proof/Decode.lean ====
section
/-! DEFINITION. The decoder (30_encoding.md R81-R84, R88) and, after it, the encoder written from the same format. -/

namespace Sys2Proof

/-- Why bytes are no instruction. -/
inductive DecodeError where
  /-- the OPCODE byte is none of the eight configured values (R82, R88) -/
  | unrecognizedOpcode (opc : Byte)
  /-- fewer than the three bytes of an instruction were given; the fetch always gives three (R113) -/
  | truncated (given : Nat)
deriving DecidableEq, Repr

/-- The instruction byte `w[k]` (R80). -/
def InstrBytes.get (w : InstrBytes) (k : Fin 3) : Byte :=
  if k = 0 then w.w0 else if k = 1 then w.w1 else w.w2

/-- The opcode-byte-to-kind lookup, a function of the opcode table alone (R83). W1 makes the order of the tests
immaterial. -/
def kindOf (op : OpCodes) (opc : Byte) : Option OpKind :=
  if opc = op.imm then some .imm
  else if opc = op.add then some .add
  else if opc = op.stk then some .stk
  else if opc = op.stm then some .stm
  else if opc = op.ldm then some .ldm
  else if opc = op.cmp then some .cmp
  else if opc = op.jmp then some .jmp
  else if opc = op.sys then some .sys
  else none

/-- The spec's own decoder (R82): one of eight kinds with its raw operand bytes, or the opcode it does not know. It is
given the field order, the opcode table and the bytes, and nothing else (R84). -/
def decodeKind (fo : FieldOrder) (op : OpCodes) (w : InstrBytes) : Except DecodeError Decoded :=
  match kindOf op (w.get fo.op) with
  | some k => .ok { kind := k, left := w.get fo.left, right := w.get fo.right }
  | none => .error (.unrecognizedOpcode (w.get fo.op))

/-- The table row of a decoded instruction: its kind's, and for the kind Sys the row its syscall number selects
(R221; W6 makes the order of the tests immaterial). -/
def instrOf (n : SysNums) (d : Decoded) : Instr :=
  match d.kind with
  | .imm => .imm d.left d.right
  | .add => .add d.left d.right
  | .stk => .stk d.left d.right
  | .stm => .stm d.left d.right
  | .ldm => .ldm d.left d.right
  | .cmp => .cmp d.left d.right
  | .jmp => .jmp d.left d.right
  | .sys =>
    if d.left = n.writeNum then .sysWrite d.right
    else if d.left = n.readNum then .sysRead d.right
    else if d.left = n.openNum then .sysOpen d.right
    else .sys d.left d.right

/-- The instruction that three bytes hold under a configuration. -/
def decode (cfg : Config) (w : InstrBytes) : Except DecodeError Instr :=
  match decodeKind cfg.fo cfg.op w with
  | .ok d => .ok (instrOf cfg.sys d)
  | .error e => .error e

/-- Decoding of any bytes: the first three are the instruction (R80: no length prefix, no other length). -/
def decodeBytes (cfg : Config) : List Byte → Except DecodeError Instr
  | w0 :: w1 :: w2 :: _ => decode cfg { w0 := w0, w1 := w1, w2 := w2 }
  | bs => .error (.truncated bs.length)

/-- Byte `k` of a number, byte 0 the least significant. -/
def byteOf (w k : Nat) : Byte := BitVec.ofNat 8 (w / 2 ^ (8 * k))

/-- The three instruction bytes of a number as the opcode table numbers its bits: the first byte is bits 7..0, the next
bits 15..8, the next bits 23..16; bits from `nbits` up are zero. -/
def tableBytes (nbits w : Nat) : InstrBytes :=
  let v := w % 2 ^ nbits
  { w0 := byteOf v 0, w1 := byteOf v 1, w2 := byteOf v 2 }

/-- The instruction the decoder reads, under the configuration of the reference session (TCFG), from a table-numbered
word. -/
def decodeTableWord (nbits w : Nat) : Option Instr :=
  match decode Config.tcfg (tableBytes nbits w) with
  | .ok i => some i
  | .error _ => none

/-- The opcode byte of a kind (R81, R88). -/
def OpCodes.ofKind (op : OpCodes) : OpKind → Byte
  | .imm => op.imm
  | .add => op.add
  | .stk => op.stk
  | .stm => op.stm
  | .ldm => op.ldm
  | .cmp => op.cmp
  | .jmp => op.jmp
  | .sys => op.sys

/-- The kind and operand bytes an instruction's row gives it (R85). -/
def Instr.fields (n : SysNums) : Instr → Decoded
  | .imm dst val => { kind := .imm, left := dst, right := val }
  | .add dst src => { kind := .add, left := dst, right := src }
  | .stk pop push => { kind := .stk, left := pop, right := push }
  | .stm dst src => { kind := .stm, left := dst, right := src }
  | .ldm dst src => { kind := .ldm, left := dst, right := src }
  | .cmp l r => { kind := .cmp, left := l, right := r }
  | .jmp flags dst => { kind := .jmp, left := flags, right := dst }
  | .sys num dst => { kind := .sys, left := num, right := dst }
  | .sysWrite dst => { kind := .sys, left := n.writeNum, right := dst }
  | .sysRead dst => { kind := .sys, left := n.readNum, right := dst }
  | .sysOpen dst => { kind := .sys, left := n.openNum, right := dst }

/-- The byte at position `k` when OPCODE, LEFT and RIGHT are placed by the field order (R81). -/
def placedByte (fo : FieldOrder) (opc left right : Byte) (k : Fin 3) : Byte :=
  if k = fo.op then opc else if k = fo.left then left else right

/-- OPCODE, LEFT and RIGHT at their places (R81, the table of the six field orders). -/
def placeFields (fo : FieldOrder) (opc left right : Byte) : InstrBytes where
  w0 := placedByte fo opc left right 0
  w1 := placedByte fo opc left right 1
  w2 := placedByte fo opc left right 2

/-- The three bytes of an instruction under a configuration. -/
def encode (cfg : Config) (i : Instr) : InstrBytes :=
  let d := i.fields cfg.sys
  placeFields cfg.fo (cfg.op.ofKind d.kind) d.left d.right

end Sys2Proof
end

