-- ==== Sys2Proof/Machine/Fetch.lean ====
section
/-! DEFINITION. Stages 1 to 4 of the step (40_step_cycle.md R111-R114), and where a program's words lie. -/

namespace Sys2Proof.Machine

/-- The byte address of an instruction index (R27, R113). -/
def indexAddress (n : Byte) : Nat := n.toNat * 3

/-- The three instruction bytes at an address. -/
def instrBytesAt (m : Memory) (a : Nat) : InstrBytes := { w0 := m.read a, w1 := m.read (a + 1), w2 := m.read (a + 2) }

/-- Stages 1 and 2 (R111, R112): i is read and its increment written back; old_ip = 255 fails before the write. -/
def nextIndex : Act Byte := do
  let oldIp ← readReg .i
  if oldIp = 0xFF then raise (.generic .ipOverflow)
  else do
    writeReg .i (oldIp + 1)
    pure oldIp

/-- Stage 3 (R113): the three bytes at old_ip * 3, checked like any access. -/
def fetchBytes (oldIp : Byte) : Act InstrBytes := do
  checkRange (indexAddress oldIp) 3
  look fun s => instrBytesAt s.mem (indexAddress oldIp)

/-- Stage 4 (R114): decode, or `raise UnrecognizedOpcode(opc)`. -/
def decodeFetched (w : InstrBytes) : Act Instr := fun s =>
  match decode s.cfg w with
  | .ok i => .ok i s
  | .error _ => raise (.unrecognizedOpcode (w.get s.cfg.fo.op)) s

/-- Stages 1 to 4 of the step (R116). -/
def fetchDecode : Act Instr := do
  let oldIp ← nextIndex
  let w ← fetchBytes oldIp
  decodeFetched w

/-- The end of a failed fetch or decode. -/
def settleFetch (oldIp : Byte) (e : Stop) (s : State) : Host.Outcome State Fault Refusal :=
  settle oldIp (.error e s)

/-- Three bytes stored as the instruction with an index. -/
def State.placeInstr (s : State) (n : Byte) (w : InstrBytes) : State :=
  { s with mem := s.mem.writeBytes (indexAddress n) [w.w0, w.w1, w.w2] }

end Sys2Proof.Machine
end

