-- ==== Sys2Proof/Machine/Step.lean ====
section
/-! DEFINITION. The whole step (40_step_cycle.md R110, R116). -/

namespace Sys2Proof.Machine

/-- The five stages of a running session's step (R116): fetch and decode, then the decoded instruction. -/
def runStages (s : State) : Host.Outcome State Fault Refusal :=
  match fetchDecode s with
  | .ok i t => exec i t
  | .error e t => settleFetch (s.reg .i) e t

/-- One step (R116). No step is defined under an ill-formed configuration (R23) or from the status `faulted` (R110);
otherwise its stages run. -/
def step (s : State) : Host.Outcome State Fault Refusal :=
  if ¬ s.cfg.WF then .refused .illFormedConfig
  else if ¬ s.params.Launchable then .refused .illFormedParams
  else
    match s.status with
    | .faulted f oldIp => .fault (.sessionFaulted f oldIp)
    | .running => runStages s

/-- `s` with a table-numbered word stored where the next step fetches (log entry 7). A faulted session takes no step, so
the status is set to running; index 255 is never fetched (R112), so an i of 255 is set to 0. -/
def State.withFetchWord (s : State) (nbits w : Nat) : State :=
  let t := { s with status := .running }
  let u := if t.reg .i = 0xFF then t.setReg .i 0x00 else t
  u.placeInstr (u.reg .i) (tableBytes nbits w)

end Sys2Proof.Machine
end

