-- ==== Sys2Proof/Machine/Session.lean ====
section
/-! DEFINITION. The start of a session (70_reset_and_hazards.md R300). -/

namespace Sys2Proof.Machine

/-- The bytes of the buffer at the start of a session (R300): the image from address 0, then FILL up to MEM_SIZE. -/
def startBytes (image : List Byte) (fill : Nat → Byte) (memSize : Nat) : List Byte :=
  image ++ (List.range' image.length (memSize - image.length)).map fill

/-- The start of a session (R300): `none` where the spec refuses to start one (an ill-formed configuration, R23; an
image longer than the buffer, D4) or where the parameters are outside R6's. -/
def State.start (cfg : Config) (params : Params) (image : List Byte) (fill : Nat → Byte) (script : List HostReply) :
    Option State :=
  if cfg.WF ∧ params.Launchable ∧ image.length ≤ params.memSize then
    some { cfg := cfg, params := params, mem := Memory.ofBytes 0 (startBytes image fill params.memSize),
           status := .running, hostScript := script, hostLog := [] }
  else none

end Sys2Proof.Machine
end

