-- ==== Sys2Proof/Safety.lean ====
section
/-! DEFINITION. The terms claims are stated in: an invariant of every session, a session ready to step, and what a safe
run is (40_step_cycle.md R120). -/

namespace Sys2Proof.Machine

/-- The invariant of a session: its configuration and parameters are well-formed (R21, R22, R6), the memory is in
canonical form, and nothing is listed outside the buffer (R50). -/
structure State.Inv (s : State) : Prop where
  cfgWF        : s.cfg.WF
  launchable   : s.params.Launchable
  memCanonical : s.mem.wf
  memInBuffer  : ∀ p ∈ s.mem, p.1 < s.params.memSize

/-- A session that takes its next step (R110): well-formed, the bank inside the buffer (R6), and running. -/
structure State.Ready (s : State) : Prop where
  cfgWF    : s.cfg.WF
  paramsWF : s.params.WF
  running  : s.status = .running

/-- The step ends normally: the STEP interface reports `ok` (R10). -/
def State.StepsOk (s : State) : Prop := ∃ t, step s = .next t ∧ t.status = .running

/-- The first `n` steps all end normally (R120). -/
def State.RunsOk (s : State) : Nat → Prop
  | 0 => True
  | n + 1 => ∃ t, step s = .next t ∧ t.status = .running ∧ t.RunsOk n

/-- The states that steps lead to. -/
inductive State.Reaches (s : State) : State → Prop where
  | refl : State.Reaches s s
  | step {t u : State} : State.Reaches s t → Machine.step t = .next u → State.Reaches s u

/-- The status is as before, or a fault was taken. -/
def StatusKeptOrFaulted (s t : State) : Prop := t.status = s.status ∨ ∃ f o, t.status = .faulted f o

/-- No request was made at the HOST port. -/
def NoHostCall (s t : State) : Prop := t.hostScript = s.hostScript ∧ t.hostLog = s.hostLog

/-- Exactly the request `req` was made at the HOST port and answered. -/
def OneHostCall (req : HostRequest) (s t : State) : Prop :=
  t.hostScript = s.hostScript.tail ∧ t.hostLog = s.hostLog ++ [req]

/-- Nothing changed but bytes of the buffer at the addresses `w` and, if a fault was taken, the status. -/
structure OnlyBytesChange (w : Nat → Prop) (s t : State) : Prop where
  cfg    : t.cfg = s.cfg
  params : t.params = s.params
  status : StatusKeptOrFaulted s t
  host   : NoHostCall s t
  bytes  : ∀ a, ¬ w a → t.mem.read a = s.mem.read a

/-- The address of the register an operand byte names, where it names one. -/
def State.operandAddress (s : State) (v : Byte) (a : Nat) : Prop := ∃ r, s.regOf v = some r ∧ a = s.regAddress r

/-- The instruction the next step fetches (R113). -/
def State.nextBytes (s : State) : InstrBytes := instrBytesAt s.mem ((s.reg .i).toNat * 3)

/-- The `HostWrite` request of SYS write (R223): the descriptor in a, and the bytes of the RAM window from the offset in
b, as many as the clamp of c leaves. -/
def State.writeRequest (s : State) : HostRequest :=
  .writeReq (s.reg .a).toNat (s.mem.readBytes (0x300 + (s.reg .b).toNat) (clamp (s.reg .b) (s.reg .c)))

/-- The `HostRead` request of SYS read (R226). -/
def State.readRequest (s : State) : HostRequest :=
  .readReq (s.reg .a).toNat (clamp (s.reg .b) (s.reg .c))

/-- `n` nonzero bytes and then a zero byte stand in the RAM window from offset `off` (R55). -/
def State.StringAt (s : State) (off : Byte) (n : Nat) : Prop :=
  off.toNat + n ≤ 255 ∧ (∀ k, k < n → s.mem.read (0x300 + off.toNat + k) ≠ 0x00) ∧
    s.mem.read (0x300 + off.toNat + n) = 0x00

/-- No zero byte stands in the RAM window from offset `off` to its end (R55). -/
def State.Unterminated (s : State) (off : Byte) : Prop :=
  ∀ k, off.toNat + k ≤ 255 → s.mem.read (0x300 + off.toNat + k) ≠ 0x00

/-- The `HostOpen` request of SYS open for a path of `n` bytes (R228). -/
def State.openRequest (s : State) (n : Nat) : HostRequest :=
  .openReq (hostPath s.params.pathBytes (s.mem.readBytes (0x300 + (s.reg .a).toNat) n)) (s.reg .b).toNat (s.reg .c).toNat

/-- The state after the host's bytes were written to the RAM window from an offset up. -/
def State.withRamBytes (s : State) (off : Byte) (data : List Byte) : State :=
  { s with mem := s.mem.writeBytes (0x300 + off.toNat) data }

end Sys2Proof.Machine

namespace Sys2Proof

/-- The register-id operand an instruction names as its destination; STM, CMP and JMP name none (R85). -/
def Instr.destination : Instr → Option Byte
  | .imm dst _ => some dst
  | .add dst _ => some dst
  | .stk pop _ => some pop
  | .stm _ _ => none
  | .ldm dst _ => some dst
  | .cmp _ _ => none
  | .jmp _ _ => none
  | .sys _ dst => some dst
  | .sysWrite dst => some dst
  | .sysRead dst => some dst
  | .sysOpen dst => some dst

end Sys2Proof
end

