-- ==== Sys2Proof/Certificates/Slice0/Obligations.lean ====
section
/-! DEFINITION. The statements about the model, in terms of the spec's rules. Log entries are notes/assumptions/<n>.md. -/

open Sys2Proof Sys2Proof.Machine

/-! ## Encoding -/

/-- Words written out from the format of R81 under TCFG, TCFG-P and two other field orders (95_test_vectors.md DC1-DC10)
decode to the instructions they stand for. -/
def Obligations.SampleWordsDecode : Prop :=
  decode Config.tcfg { w0 := 0x10, w1 := 0x01, w2 := 0x05 } = .ok (.imm 0x01 0x05) ∧
  decode Config.tcfg { w0 := 0x11, w1 := 0xFF, w2 := 0xFE } = .ok (.add 0xFF 0xFE) ∧
  decode Config.tcfg { w0 := 0x12, w1 := 0x00, w2 := 0x03 } = .ok (.stk 0x00 0x03) ∧
  decode Config.tcfg { w0 := 0x13, w1 := 0x02, w2 := 0x01 } = .ok (.stm 0x02 0x01) ∧
  decode Config.tcfg { w0 := 0x14, w1 := 0x03, w2 := 0x02 } = .ok (.ldm 0x03 0x02) ∧
  decode Config.tcfg { w0 := 0x15, w1 := 0x01, w2 := 0x02 } = .ok (.cmp 0x01 0x02) ∧
  decode Config.tcfg { w0 := 0x16, w1 := 0x01, w2 := 0x04 } = .ok (.jmp 0x01 0x04) ∧
  decode Config.tcfg { w0 := 0x17, w1 := 0x00, w2 := 0x00 } = .ok (.sys 0x00 0x00) ∧
  decode Config.tcfg { w0 := 0x17, w1 := 0x03, w2 := 0x04 } = .ok (.sysWrite 0x04) ∧
  decode Config.tcfg { w0 := 0x17, w1 := 0x02, w2 := 0x04 } = .ok (.sysRead 0x04) ∧
  decode Config.tcfg { w0 := 0x17, w1 := 0x01, w2 := 0x04 } = .ok (.sysOpen 0x04) ∧
  decode Config.tcfg { w0 := 0x18, w1 := 0x01, w2 := 0x02 } = .error (.unrecognizedOpcode 0x18) ∧
  decode Config.tcfgP { w0 := 0x01, w1 := 0x05, w2 := 0x10 } = .ok (.imm 0x01 0x05) ∧
  decode Config.tcfgP { w0 := 0x10, w1 := 0x01, w2 := 0x05 } = .error (.unrecognizedOpcode 0x05) ∧
  decode { Config.tcfg with fo := { op := 1, left := 2, right := 0 } } { w0 := 0x05, w1 := 0x10, w2 := 0x01 }
    = .ok (.imm 0x01 0x05) ∧
  decode { Config.tcfg with fo := { op := 0, left := 2, right := 1 } } { w0 := 0x16, w1 := 0x04, w2 := 0x01 }
    = .ok (.jmp 0x01 0x04)

/-- R82: the decoder reads the opcode byte at the configured position and the operand bytes at theirs, matches the
opcode against the eight values, distinct by W1, accepts any operands, and fails on no match. -/
def Obligations.DecoderSelectsKindByOpcode : Prop :=
  ∀ (fo : FieldOrder) (op : OpCodes) (w : InstrBytes), op.toList.Nodup →
    (∀ k, w.get fo.op = op.ofKind k →
      decodeKind fo op w = .ok { kind := k, left := w.get fo.left, right := w.get fo.right }) ∧
    ((∀ k, w.get fo.op ≠ op.ofKind k) → decodeKind fo op w = .error (.unrecognizedOpcode (w.get fo.op)))

/-- R84: permuting the bytes and the field order by the same permutation gives the same result. That the result depends
on nothing but the bytes, the field order and the opcode table is the type of `decodeKind`. -/
def Obligations.DecodeUnchangedByConsistentPermutation : Prop :=
  ∀ (p : Equiv.Perm (Fin 3)) (fo : FieldOrder) (op : OpCodes) (w w' : InstrBytes),
    (∀ k, w'.get (p k) = w.get k) →
    decodeKind { op := p fo.op, left := p fo.left, right := p fo.right } op w' = decodeKind fo op w

/-- Decode and encode agree: under every well-formed configuration, every well-formed instruction, with every operand at
every byte, is what its own three bytes decode to. -/
def Obligations.DecodeInvertsEncode : Prop :=
  ∀ (cfg : Config) (i : Instr), cfg.WF → i.WF cfg.sys → decode cfg (encode cfg i) = .ok i

/-- Where three bytes decode, they are the encoding of what they decode to, which is well-formed: no word has a second
reading and no bit is dropped. -/
def Obligations.EncodeInvertsDecode : Prop :=
  ∀ (cfg : Config) (w : InstrBytes) (i : Instr), cfg.WF → decode cfg w = .ok i → encode cfg i = w ∧ i.WF cfg.sys

/-- R88: the opcode map has the eight configured entries and nothing else: 248 byte values are illegal, and an illegal
OPCODE, whatever LEFT and RIGHT hold, raises UnrecognizedOpcode(opc) at stage 4, after i was incremented (R114, R117).
That the fault is a status which records the index too is the spec's decisions D13 and D14, log entries 10 and 17. -/
def Obligations.IllegalOpcodesFault : Prop :=
  (∀ op : OpCodes, op.toList.Nodup →
    (∀ k, kindOf op (op.ofKind k) = some k) ∧
    ((List.range 256).map (BitVec.ofNat 8)).countP (fun b => (kindOf op b).isNone) = 248) ∧
  (∀ s : State, s.Ready → s.reg .i ≠ 0xFF → (∀ k, s.nextBytes.get s.cfg.fo.op ≠ s.cfg.op.ofKind k) →
    step s = .next (takeFault (.unrecognizedOpcode (s.nextBytes.get s.cfg.fo.op)) (s.reg .i)
      (s.setReg .i (s.reg .i + 1))))

/-! ## The step -/

/-- R113-R115: where the three bytes at old_ip * 3 decode, the step runs the decoded instruction in the state whose i
was incremented. -/
def Obligations.StepRunsDecodedInstruction : Prop :=
  ∀ (s : State) (i : Instr), s.Ready → s.reg .i ≠ 0xFF → decode s.cfg s.nextBytes = .ok i →
    step s = exec i (s.setReg .i (s.reg .i + 1))

/-- R112 (an inference the spec marks as its own): at i = 255 the step faults with IpOverflow; nothing is written and i
stays 255. What the fault records is the spec's decision D14, log entry 17. -/
def Obligations.IndexOverflowEndsSession : Prop :=
  ∀ s : State, s.Ready → s.reg .i = 0xFF → step s = .next { s with status := .faulted (.generic .ipOverflow) 0xFF }

/-- R110 (decision D13 of the spec): no step is defined from the status `faulted`. -/
def Obligations.FaultedSessionTakesNoStep : Prop :=
  ∀ (s : State) (f : FaultClass) (o : Byte), s.status = .faulted f o →
    (∀ t, step s ≠ .next t) ∧ (s.cfg.WF → s.params.Launchable → step s = .fault (.sessionFaulted f o))

/-- R23, R300 (decisions D4, D12 of the spec): a configuration that breaks one of W1 to W6 starts no session, and no step
is defined under it; an image longer than the buffer starts no session. -/
def Obligations.RefusedSessions : Prop :=
  (∀ cfg : Config, ¬ (cfg.op.toList.Nodup ∧ cfg.id.toList.Nodup ∧ (∀ v ∈ cfg.id.toList, v ≠ 0) ∧ cfg.id.none = 0 ∧
      cfg.fo.toList.Nodup ∧ cfg.sys.toList.Nodup) →
    (∀ params image fill script, State.start cfg params image fill script = none) ∧
    (∀ s : State, s.cfg = cfg → step s = .refused .illFormedConfig)) ∧
  (∀ cfg params image fill script, params.memSize < image.length → State.start cfg params image fill script = none)

/-- R54 (an inference the spec marks as its own): in a session whose buffer holds the bank, no step raises
AddressOutOfRange. -/
def Obligations.AddressOutOfRangeUnreachable : Prop :=
  ∀ s t : State, s.Ready → step s = .next t → ∀ a o, t.status ≠ .faulted (.addressOutOfRange a) o

/-- R261 (decisions D13, D14 of the spec; log entries 10, 17): a step that has a next state ends running, or faulted with
the index of its own instruction recorded. -/
def Obligations.StepEndsRunningOrRecordsItsIndex : Prop :=
  ∀ s t : State, s.Ready → step s = .next t → t.status = .running ∨ ∃ f, t.status = .faulted f (s.reg .i)

/-- R117 (an inference the spec marks as its own): a fault in stage 2 leaves i = 255; a fault in any later stage leaves
i = old_ip + 1. -/
def Obligations.FaultLeavesNextIndex : Prop :=
  ∀ (s t : State) (f : FaultClass) (o : Byte), s.Ready → step s = .next t → t.status = .faulted f o →
    (f = .generic .ipOverflow → s.reg .i = 0xFF ∧ t.reg .i = 0xFF) ∧
    (f ≠ .generic .ipOverflow → t.reg .i = s.reg .i + 1)

/-- R118 (an inference the spec marks as its own): a step that ends normally and whose instruction neither names i as
its destination nor is a taken JMP leaves i = old_ip + 1. -/
def Obligations.StraightLineAdvancesByOne : Prop :=
  ∀ (s t : State) (i : Instr), s.Ready → decode s.cfg s.nextBytes = .ok i → step s = .next t → t.status = .running →
    (∀ v, i.destination = some v → s.regOf v ≠ some .i) →
    (∀ flags dst, i = .jmp flags dst → flags ≠ 0 ∧ s.reg .f &&& flags = 0) →
    t.reg .i = s.reg .i + 1

/-- The word `withFetchWord` places is the one the next step runs, from the reset state (log entry 7). -/
def Obligations.PlacedWordRunsNext : Prop :=
  ∀ (nbits w : Nat) (i : Instr), decodeTableWord nbits w = some i →
    step (State.reset.withFetchWord nbits w) = exec i ((State.reset.withFetchWord nbits w).setReg .i 0x01)

/-! ## The whole machine -/

/-- The reference session starts in the invariant (log entries 1, 4, 5). -/
def Obligations.InvariantHoldsAtReset : Prop := State.reset.Inv ∧ State.reset.Ready

/-- The invariant of a session (well-formed configuration and parameters, canonical memory, nothing outside the buffer)
is kept by every step, from every state that meets it. -/
def Obligations.StepKeepsInvariant : Prop :=
  ∀ s t : State, s.Inv → step s = .next t → t.Inv

/-- R64 (an inference the spec marks as its own): no instruction can modify code; the code region is constant for a
whole session. -/
def Obligations.CodeRegionIsConstant : Prop :=
  ∀ s t : State, s.Reaches t → ∀ a, a < 0x300 → t.mem.read a = s.mem.read a

/-- R20, R31, R6: the configuration and the parameters are fixed for a session. That the history of host requests only
grows is about `hostLog`, the model's own field (log entry 23), and follows no rule of the spec. -/
def Obligations.ConfigurationIsFixed : Prop :=
  ∀ s t : State, s.Reaches t → t.cfg = s.cfg ∧ t.params = s.params ∧ s.hostLog <+: t.hostLog

/-- R30: only CMP writes f as a side effect; every other write to f is an explicit destination. ADD, among the others,
sets no flag. -/
def Obligations.OnlyCmpWritesFlagsAsSideEffect : Prop :=
  ∀ (i : Instr) (s t : State), s.params.WF → exec i s = .next t → (∀ l r, i ≠ .cmp l r) →
    (∀ v, i.destination = some v → s.regOf v ≠ some .f) → t.reg .f = s.reg .f

/-! ## Reset and the start of a session -/

/-- R300 (with the spec's decisions D3, D4): the image stands from address 0, FILL on every other byte of the buffer,
the status is running, and every register is the byte at its bank address (R34), which no session start sets
otherwise. The script and the history are the model's own fields (log entry 23). -/
def Obligations.StartLoadsImageThenFill : Prop :=
  ∀ (cfg : Config) (params : Params) (image : List Byte) (fill : Nat → Byte) (script : List HostReply),
    cfg.WF → params.Launchable → image.length ≤ params.memSize →
    ∃ s, State.start cfg params image fill script = some s ∧ s.Inv ∧ s.cfg = cfg ∧ s.params = params ∧
      s.status = .running ∧ s.hostScript = script ∧ s.hostLog = [] ∧
      (∀ k, (h : k < image.length) → s.mem.read k = image[k]) ∧
      (∀ k, image.length ≤ k → k < params.memSize → s.mem.read k = fill k) ∧
      (∀ r, s.reg r = s.mem.read (s.regAddress r)) ∧
      (params.WF → ∀ r, s.reg r =
        if h : s.regAddress r < image.length then image[s.regAddress r] else fill (s.regAddress r))

/-- The reset state is the start of the reference session (log entries 1, 4, 5: TCFG, empty image, FILL 0, empty host
script), so every register is 0. -/
def Obligations.ResetIsReferenceStart : Prop :=
  State.start Config.tcfg Params.reference [] (fun _ => 0x00) [] = some State.reset ∧ ∀ r, State.reset.reg r = 0x00

/-! ## Memory -/

/-- R59, R61: a byte holds the value last written to it until the next write, and a write leaves every other byte alone
(and keeps the canonical form, log entry 4). -/
def Obligations.ByteHoldsLastWrite : Prop :=
  ∀ (m : Memory) (a b : Nat) (v : Byte), m.wf →
    (m.write a v).wf ∧ (m.write a v).read a = v ∧ (b ≠ a → (m.write a v).read b = m.read b)

/-- R53: the RAM primitives add the offset to 0x300 and access the buffer; they reach exactly 0x300-0x3FF, never the
code region or the bank, and an address that is not in the buffer fails. -/
def Obligations.RamPrimitivesReachTheWindow : Prop :=
  (∀ (s : State) (o v : Byte),
    readRam o s = (if 0x300 + o.toNat < s.params.memSize then .ok (s.mem.read (0x300 + o.toNat)) s
      else .error (.raised (.addressOutOfRange (0x300 + o.toNat))) s) ∧
    writeRam o v s = (if 0x300 + o.toNat < s.params.memSize
      then .ok () { s with mem := s.mem.write (0x300 + o.toNat) v }
      else .error (.raised (.addressOutOfRange (0x300 + o.toNat))) s)) ∧
  (∀ a, (∃ o : Byte, ramAddress o = a) ↔ 0x300 ≤ a ∧ a ≤ 0x3FF) ∧
  (∀ (s : State) (r : Reg) (o : Byte), ramAddress o ≠ s.regAddress r)

/-- R14, R54: an access of n bytes at addr is in range iff addr + n <= MEM_SIZE; one out of range raises
AddressOutOfRange(addr) and performs no write, a register access too. -/
def Obligations.OutOfRangeAccessWritesNothing : Prop :=
  ∀ (s : State) (addr n : Nat) (bytes : List Byte) (r : Reg) (v : Byte),
    (s.params.memSize < addr + n → memRead addr n s = .error (.raised (.addressOutOfRange addr)) s) ∧
    (addr + n ≤ s.params.memSize → memRead addr n s = .ok (s.mem.readBytes addr n) s) ∧
    (s.params.memSize < addr + bytes.length →
      memWrite addr bytes s = .error (.raised (.addressOutOfRange addr)) s) ∧
    (addr + bytes.length ≤ s.params.memSize →
      memWrite addr bytes s = .ok () { s with mem := s.mem.writeBytes addr bytes }) ∧
    (s.params.memSize ≤ s.regAddress r →
      readReg r s = .error (.raised (.addressOutOfRange (s.regAddress r))) s ∧
      writeReg r v s = .error (.raised (.addressOutOfRange (s.regAddress r))) s)

/-- R25, R26 (REG_ADDR: decision D1 of the spec): the seven registers are seven bytes of the bank; a write to one is
read back from it and from no other, nor from the RAM window. -/
def Obligations.RegistersAreSeparateBankBytes : Prop :=
  ∀ (s : State) (r q : Reg) (v o : Byte), s.params.WF →
    0x400 ≤ s.regAddress r ∧ s.regAddress r ≤ 0x406 ∧ s.reg r = s.mem.read (s.regAddress r) ∧
    writeReg r v s = .ok () (s.setReg r v) ∧ (s.setReg r v).reg r = v ∧
    (q ≠ r → (s.setReg r v).reg q = s.reg q) ∧ (s.setReg r v).ram o = s.ram o

/-! ## IMM, ADD -/

/-- R140: IMM sets dst, any of the seven registers, to the literal byte; dst = i makes it the next index. -/
def Obligations.ImmLoadsLiteral : Prop :=
  ∀ (s : State) (dst val : Byte) (rd : Reg), s.params.WF → s.regOf dst = some rd →
    exec (.imm dst val) s = .next (s.setReg rd val)

/-- R142: ADD sets dst to (dst + src) mod 256, for any two registers (equal or not, i among them: R143). -/
def Obligations.AddSumsModulo256 : Prop :=
  ∀ (s : State) (dst src : Byte) (rd rs : Reg), s.params.WF → s.regOf dst = some rd → s.regOf src = some rs →
    exec (.add dst src) s = .next (s.setReg rd (BitVec.ofNat 8 (((s.reg rd).toNat + (s.reg rs).toNat) % 256)))

/-! ## STK, STM, LDM -/

/-- R160 (order of s: decision D9 of the spec): STK in its four forms. A push increments s and then stores the register,
read after the increment, at the new s. A pop writes the byte at s to the register and then decrements s. -/
def Obligations.StkPushesThenPops : Prop :=
  ∀ (s : State) (pop push : Byte) (dp dq : Reg), s.params.WF →
    let pushed := s.setReg .s (s.reg .s + 1)
    let afterPush := pushed.setRam (pushed.reg .s) (pushed.reg dq)
    let popInto := fun u : State => u.setReg dp (u.ram (u.reg .s))
    let afterPop := fun u : State => (popInto u).setReg .s ((popInto u).reg .s - 1)
    exec (.stk 0x00 0x00) s = .next s ∧
    (push ≠ 0 → s.regOf push = some dq → exec (.stk 0x00 push) s = .next afterPush) ∧
    (pop ≠ 0 → s.regOf pop = some dp → exec (.stk pop 0x00) s = .next (afterPop s)) ∧
    (push ≠ 0 → s.regOf push = some dq → pop ≠ 0 → s.regOf pop = some dp →
      exec (.stk pop push) s = .next (afterPop afterPush))

/-- R161 (an inference the spec marks as its own): a push with s = 0xFF sets s = 0x00 and writes ram[0x00]; a pop with
s = 0x00 reads ram[0x00] and sets s = 0xFF. Neither faults. -/
def Obligations.StackPointerWraps : Prop :=
  ∀ (s : State) (v : Byte) (rd : Reg), s.params.WF → v ≠ 0 → s.regOf v = some rd → rd ≠ .s →
    (s.reg .s = 0xFF → ∃ t, exec (.stk 0x00 v) s = .next t ∧ t.status = s.status ∧ t.reg .s = 0x00 ∧
      t.mem.read 0x300 = s.reg rd) ∧
    (s.reg .s = 0x00 → ∃ t, exec (.stk v 0x00) s = .next t ∧ t.status = s.status ∧ t.reg .s = 0xFF ∧
      t.reg rd = s.mem.read 0x300)

/-- R162 (decision D9 of the spec): push s stores the incremented s; pop s leaves the popped byte minus 1; push i stores
the index of the next instruction; pop i makes the popped byte the next index. -/
def Obligations.StackPointerAndIndexAsOperands : Prop :=
  ∀ (s : State) (v : Byte), s.params.WF → v ≠ 0 →
    (s.regOf v = some .s →
      (∃ t, exec (.stk 0x00 v) s = .next t ∧ t.reg .s = s.reg .s + 1 ∧ t.ram (s.reg .s + 1) = s.reg .s + 1) ∧
      (∃ t, exec (.stk v 0x00) s = .next t ∧ t.reg .s = s.ram (s.reg .s) - 1)) ∧
    (s.regOf v = some .i →
      (∃ t, exec (.stk 0x00 v) s = .next t ∧ t.reg .s = s.reg .s + 1 ∧ t.ram (s.reg .s + 1) = s.reg .i) ∧
      (∃ t, exec (.stk v 0x00) s = .next t ∧ t.reg .i = s.ram (s.reg .s) ∧ t.reg .s = s.reg .s - 1))

/-- R163 (an inference the spec marks as its own): `STK x y` with x, y not s copies y into x and keeps s; its only other
effect is y's value at ram[s + 1]. `STK s s` keeps s and leaves s + 1 at ram[s + 1]. -/
def Obligations.StkBothHalvesCopyARegister : Prop :=
  ∀ (s : State) (x y : Byte), s.params.WF → x ≠ 0 → y ≠ 0 →
    (∀ dx dy, s.regOf x = some dx → s.regOf y = some dy → dx ≠ .s → dy ≠ .s →
      ∃ t, exec (.stk x y) s = .next t ∧ t.reg dx = s.reg dy ∧ t.reg .s = s.reg .s ∧
        t.ram (s.reg .s + 1) = s.reg dy ∧
        ∀ a, a ≠ s.regAddress dx → a ≠ ramAddress (s.reg .s + 1) → t.mem.read a = s.mem.read a) ∧
    (s.regOf x = some .s → s.regOf y = some .s →
      ∃ t, exec (.stk x y) s = .next t ∧ t.reg .s = s.reg .s ∧ t.ram (s.reg .s + 1) = s.reg .s + 1)

/-- R164 (an inference the spec marks as its own; 90_conflicts.md C4): a push of X and a later pop into Y, X and Y not
s, with s and the stack byte untouched in between, give Y the pushed value of X and s its value from before. -/
def Obligations.StackRoundTrip : Prop :=
  ∀ (s : State) (x y : Byte) (dx dy : Reg), s.params.WF → x ≠ 0 → y ≠ 0 → s.regOf x = some dx → s.regOf y = some dy →
    dx ≠ .s → dy ≠ .s →
    ∃ t, exec (.stk 0x00 x) s = .next t ∧
      ∀ t' : State, t'.cfg = t.cfg → t'.params = t.params → t'.reg .s = t.reg .s →
        t'.ram (t.reg .s) = t.ram (t.reg .s) →
        ∃ u, exec (.stk y 0x00) t' = .next u ∧ u.reg dy = s.reg dx ∧ u.reg .s = s.reg .s

/-- R165: STK has no atomicity. A fault in resolving the push register leaves s incremented and the stack byte
unwritten; a fault in the pop half leaves the push half, if there is one, done. That a bad push register faults after the
increment and a bad pop register before the decrement is the spec's decision D9, log entry 14; the recorded index is
log entry 6 (DEDUCED from R27). -/
def Obligations.StkFaultKeepsWhatWasDone : Prop :=
  ∀ (s : State) (pop push : Byte) (dq : Reg), s.params.WF →
    let pushed := s.setReg .s (s.reg .s + 1)
    (push ≠ 0 → s.regOf push = none →
      exec (.stk pop push) s = .next (takeFault (.unknownRegister push) (s.reg .i - 1) pushed)) ∧
    (push ≠ 0 → s.regOf push = some dq → pop ≠ 0 → s.regOf pop = none →
      exec (.stk pop push) s = .next (takeFault (.unknownRegister pop) (s.reg .i - 1)
        (pushed.setRam (s.reg .s + 1) (pushed.reg dq)))) ∧
    (pop ≠ 0 → s.regOf pop = none →
      exec (.stk pop 0x00) s = .next (takeFault (.unknownRegister pop) (s.reg .i - 1) s))

/-- R166, R167: STM writes src's value at the RAM offset that dst's value is: address 0x300 + x[dst]. -/
def Obligations.StmStoresThroughRegister : Prop :=
  ∀ (s : State) (dst src : Byte) (rd rs : Reg), s.params.WF → s.regOf dst = some rd → s.regOf src = some rs →
    exec (.stm dst src) s = .next { s with mem := s.mem.write (0x300 + (s.reg rd).toNat) (s.reg rs) }

/-- R167, R168: LDM reads the byte at the RAM offset that src's value is into dst, unextended. -/
def Obligations.LdmLoadsThroughRegister : Prop :=
  ∀ (s : State) (dst src : Byte) (rd rs : Reg), s.params.WF → s.regOf dst = some rd → s.regOf src = some rs →
    exec (.ldm dst src) s = .next (s.setReg rd (s.mem.read (0x300 + (s.reg rs).toNat)))

/-! ## CMP, JMP -/

/-- R190 (register operands: decision D7 of the spec, log entry 12): CMP overwrites f with the OR of the masks whose
condition holds; operand f gives its old value. That both order comparisons, `bigger` too, are unsigned is R191, an
inference the spec marks as its own (log entry 24, DEDUCED). -/
def Obligations.CmpWritesOrOfHoldingMasks : Prop :=
  ∀ (s : State) (left right : Byte) (rl rr : Reg), s.params.WF → s.regOf left = some rl → s.regOf right = some rr →
    let lv := (s.reg rl).toNat
    let rv := (s.reg rr).toNat
    exec (.cmp left right) s = .next (s.setReg .f (
      (if lv = 0 ∧ rv = 0 then s.cfg.masks.zero else 0) ||| (if lv < rv then s.cfg.masks.smaller else 0) |||
      (if lv > rv then s.cfg.masks.bigger else 0) ||| (if lv = rv then s.cfg.masks.equal else 0) |||
      (if lv ≠ rv then s.cfg.masks.notEqual else 0)))

/-- R192 (an inference the spec marks as its own; unsigned `bigger`: R191, log entry 24, DEDUCED): for every masks and
values the flag byte is one of four. -/
def Obligations.CmpFlagByteIsOneOfFour : Prop :=
  ∀ (m : Masks) (lv rv : Byte),
    (lv = 0 → rv = 0 → cmpFlags m lv rv = m.zero ||| m.equal) ∧
    (lv = rv → rv ≠ 0 → cmpFlags m lv rv = m.equal) ∧
    (lv.toNat < rv.toNat → cmpFlags m lv rv = m.smaller ||| m.notEqual) ∧
    (lv.toNat > rv.toNat → cmpFlags m lv rv = m.bigger ||| m.notEqual)

/-- R196: JMP with flags = 0 is always taken; with flags = F it is taken iff f AND F is nonzero. Taken, it makes the
register's value the next index; the decision depends only on LEFT and on f when JMP executes. -/
def Obligations.JmpTakenIffMaskZeroOrShared : Prop :=
  ∀ (s : State) (flags dst : Byte) (rd : Reg), s.params.WF → s.regOf dst = some rd →
    exec (.jmp flags dst) s =
      .next (if flags = 0 ∨ s.reg .f &&& flags ≠ 0 then s.setReg .i (s.reg rd) else s)

/-- R195 (decision D8 of the spec): a JMP that is not taken has no effect, whatever its dst byte is. -/
def Obligations.JmpNotTakenHasNoEffect : Prop :=
  ∀ (s : State) (flags dst : Byte), s.params.WF → flags ≠ 0 → s.reg .f &&& flags = 0 →
    exec (.jmp flags dst) s = .next s

/-! ## Faults of the operands -/

/-- The exception lists of R140, R142, R166, R168, R190, R195, with the spec's decisions D5 (`none` names no register)
and D23 (which operand is reported), log entries 11 and 20: an operand byte that names no register raises UnknownRegister
of that byte, and nothing but the status changes. The recorded index, x[i] minus 1, is log entry 6 (DEDUCED from R27). -/
def Obligations.UnknownOperandFaults : Prop :=
  ∀ (s : State) (l r : Byte), s.params.WF →
    let faulted := fun v : Byte => takeFault (.unknownRegister v) (s.reg .i - 1) s
    (s.regOf l = none → exec (.imm l r) s = .next (faulted l)) ∧
    (s.regOf l = none → exec (.add l r) s = .next (faulted l)) ∧
    (s.regOf l ≠ none → s.regOf r = none → exec (.add l r) s = .next (faulted r)) ∧
    (s.regOf l = none → exec (.stm l r) s = .next (faulted l)) ∧
    (s.regOf l ≠ none → s.regOf r = none → exec (.stm l r) s = .next (faulted r)) ∧
    (s.regOf r = none → exec (.ldm l r) s = .next (faulted r)) ∧
    (s.regOf r ≠ none → s.regOf l = none → exec (.ldm l r) s = .next (faulted l)) ∧
    (s.regOf l = none → exec (.cmp l r) s = .next (faulted l)) ∧
    (s.regOf l ≠ none → s.regOf r = none → exec (.cmp l r) s = .next (faulted r)) ∧
    (l = 0 ∨ s.reg .f &&& l ≠ 0 → s.regOf r = none → exec (.jmp l r) s = .next (faulted r))

/-- R24 (decision D5 of the spec): under a well-formed configuration each register's identifier names it, and the
sentinel 0 and every byte outside the seven identifiers name none. -/
def Obligations.IdentifiersNameTheirRegisters : Prop :=
  ∀ s : State, s.cfg.WF →
    s.regOf s.cfg.id.a = some .a ∧ s.regOf s.cfg.id.b = some .b ∧ s.regOf s.cfg.id.c = some .c ∧
    s.regOf s.cfg.id.d = some .d ∧ s.regOf s.cfg.id.s = some .s ∧ s.regOf s.cfg.id.i = some .i ∧
    s.regOf s.cfg.id.f = some .f ∧ s.regOf s.cfg.id.none = none ∧ ∀ v, v ∉ s.cfg.id.toList → s.regOf v = none

/-! ## SYS and the HOST port -/

/-- R221 (W6: decision D11 of the spec): SYS dispatches on the syscall number; any other number raises
UnrecognizedSyscall, and nothing but the status changes. The recorded index, x[i] minus 1, is log entry 6 (DEDUCED from
R27). -/
def Obligations.SysDispatchesOnNumber : Prop :=
  ∀ (s : State) (num dst : Byte), s.cfg.SysNumsDistinct →
    exec (.sys s.cfg.sys.writeNum dst) s = exec (.sysWrite dst) s ∧
    exec (.sys s.cfg.sys.readNum dst) s = exec (.sysRead dst) s ∧
    exec (.sys s.cfg.sys.openNum dst) s = exec (.sysOpen dst) s ∧
    (num ∉ s.cfg.sys.toList →
      exec (.sys num dst) s = .next (takeFault (.unrecognizedSyscall num) (s.reg .i - 1) s))

/-- R222: the clamp is min(len, 256 - off), at most 255, and the transfer stays inside the window. -/
def Obligations.ClampKeepsTransferInWindow : Prop :=
  ∀ off len : Byte, clamp off len = min len.toNat (256 - off.toNat) ∧ clamp off len ≤ 255 ∧
    off.toNat + clamp off len ≤ 256

/-- R55: read_string returns the bytes before the first zero byte from `off`; it fails if no zero byte stands at an
offset from `off` to 255, and never wraps to offset 0. The info recorded, the start offset, is R260's, the spec's
decision D14, log entry 17. -/
def Obligations.ReadStringStopsAtZero : Prop :=
  ∀ (s : State) (off : Byte), s.params.WF →
    (∀ n, s.StringAt off n → readString off s = .ok (s.mem.readBytes (0x300 + off.toNat) n) s) ∧
    (s.Unterminated off → readString off s = .error (.raised (.generic (.unterminatedString off))) s) ∧
    ((∃ n, s.StringAt off n) ∨ s.Unterminated off)

/-- R220 (bounds: decision D16 of the spec; log entry 2): a count is at most the bytes sent, data at most the bytes
asked for, and every answer within the bounds, Err among them, is one the host can give. -/
def Obligations.HostAnswersKeepTheirBounds : Prop :=
  (∀ fd bytes s cnt t, hostWrite fd bytes s = .ok (some cnt) t → cnt ≤ bytes.length) ∧
  (∀ fd n s data t, hostRead fd n s = .ok (some data) t → data.length ≤ n) ∧
  (∀ (fd : Byte) (bytes : List Byte) (s : State) (res : Option Nat), (∀ cnt, res = some cnt → cnt ≤ bytes.length) →
    ∃ script t, hostWrite fd bytes { s with hostScript := script } = .ok res t) ∧
  (∀ (fd : Byte) (n : Nat) (s : State) (res : Option (List Byte)), (∀ data, res = some data → data.length ≤ n) →
    ∃ script t, hostRead fd n { s with hostScript := script } = .ok res t) ∧
  (∀ (path : List Byte) (flags mode : Byte) (s : State) (res : Option Nat),
    ∃ script t, hostOpen path flags mode { s with hostScript := script } = .ok res t)

/-- R230: the host never writes the buffer: an answered request changes only the host's script and the history. -/
def Obligations.HostNeverWritesTheBuffer : Prop :=
  ∀ (req : HostRequest) (s t : State) (a : HostAnswer), hostCall req s = .ok a t →
    t.mem = s.mem ∧ t.cfg = s.cfg ∧ t.params = s.params ∧ t.status = s.status ∧ t.hostLog = s.hostLog ++ [req]

/-- R223: on success SYS write stores the count, within R220's bound, modulo 256 into dst; the host received the clamped
slice. Both for the row SYS.write and for SYS with the number of write. -/
def Obligations.SysWriteStoresCount : Prop :=
  ∀ (s : State) (dst : Byte) (rd : Reg) (num : Nat) (data : List Byte), s.params.WF → s.regOf dst = some rd →
    s.hostAnswerTo s.writeRequest = some (.ok num data) →
    let t := (s.afterHostCall s.writeRequest).setReg rd
      (BitVec.ofNat 8 (min num (clamp (s.reg .b) (s.reg .c)) % 256))
    exec (.sysWrite dst) s = .next t ∧ exec (.sys s.cfg.sys.writeNum dst) s = .next t

/-- R226 (SYS_READ_SETS_DST: decision D10 of the spec): on success SYS read writes the bytes received, at most the
clamped length, from the offset in b up, and with the parameter their count modulo 256 into dst; without it no register
is resolved. -/
def Obligations.SysReadFillsRam : Prop :=
  ∀ (s : State) (dst : Byte) (rd : Reg) (num : Nat) (data : List Byte), s.params.WF → s.cfg.SysNumsDistinct →
    s.hostAnswerTo s.readRequest = some (.ok num data) →
    let received := data.take (clamp (s.reg .b) (s.reg .c))
    let u := (s.afterHostCall s.readRequest).withRamBytes (s.reg .b) received
    let t := u.setReg rd (BitVec.ofNat 8 (received.length % 256))
    (s.params.sysReadSetsDst = true → s.regOf dst = some rd →
      exec (.sysRead dst) s = .next t ∧ exec (.sys s.cfg.sys.readNum dst) s = .next t) ∧
    (s.params.sysReadSetsDst = false →
      exec (.sysRead dst) s = .next u ∧ exec (.sys s.cfg.sys.readNum dst) s = .next u)

/-- R228: SYS open hands the host the string at the offset in a, with the flags in b and the mode in c, zero-extended
(decision D17 of the spec, log entry 19), and on success stores a descriptor of at most 255 into dst. R234 (decision D18
of the spec, log entry 3): the host receives the raw bytes under the reference value of PATH_BYTES, and a path of bytes
0x01-0x7F as it is under both values. -/
def Obligations.SysOpenStoresDescriptor : Prop :=
  ∀ (s : State) (dst : Byte) (rd : Reg) (n desc : Nat) (data : List Byte), s.params.WF → s.cfg.SysNumsDistinct →
    s.regOf dst = some rd → s.StringAt (s.reg .a) n →
    s.hostAnswerTo (s.openRequest n) = some (.ok desc data) → desc ≤ 255 →
    let t := (s.afterHostCall (s.openRequest n)).setReg rd (BitVec.ofNat 8 desc)
    exec (.sysOpen dst) s = .next t ∧ exec (.sys s.cfg.sys.openNum dst) s = .next t ∧
    (∀ path, hostPath .raw path = path) ∧
    (∀ p path, (∀ b ∈ path, 0x01 ≤ b.toNat ∧ b.toNat ≤ 0x7F) → hostPath p path = path)

/-- R263: an Err from the host is swallowed: the instruction completes with no register change, and the session goes
on. No byte of the buffer and no status changes, and dst is not resolved. -/
def Obligations.HostFailureChangesNothing : Prop :=
  ∀ (s : State) (dst : Byte) (n : Nat), s.params.WF →
    (s.hostAnswerTo s.writeRequest = some .err →
      exec (.sysWrite dst) s = .next (s.afterHostCall s.writeRequest)) ∧
    (s.hostAnswerTo s.readRequest = some .err →
      exec (.sysRead dst) s = .next (s.afterHostCall s.readRequest)) ∧
    (s.StringAt (s.reg .a) n → s.hostAnswerTo (s.openRequest n) = some .err →
      exec (.sysOpen dst) s = .next (s.afterHostCall (s.openRequest n))) ∧
    (∀ (req : HostRequest), (s.afterHostCall req).mem = s.mem ∧ (s.afterHostCall req).status = s.status)

/-- R229, R228: an unterminated path faults before any host call; a descriptor above 255 faults after it, before dst is
resolved, and dst is unchanged. The infos recorded, the start offset and the descriptor, are R260's, the spec's decision
D14, log entry 17; the recorded index, x[i] minus 1, is log entry 6 (DEDUCED from R27). -/
def Obligations.SysOpenFaults : Prop :=
  ∀ (s : State) (dst : Byte) (n desc : Nat) (data : List Byte), s.params.WF →
    (s.Unterminated (s.reg .a) →
      exec (.sysOpen dst) s =
        .next (takeFault (.generic (.unterminatedString (s.reg .a))) (s.reg .i - 1) s)) ∧
    (s.StringAt (s.reg .a) n → s.hostAnswerTo (s.openRequest n) = some (.ok desc data) → desc > 255 →
      exec (.sysOpen dst) s =
        .next (takeFault (.generic (.descriptorTooWide desc)) (s.reg .i - 1) (s.afterHostCall (s.openRequest n))))

/-- R224, R227, R229 (decision D5 of the spec, log entry 11): with a dst that names no register, a successful host call is
done, the bytes SYS read received stay in RAM, and then UnknownRegister is raised. The recorded index, x[i] minus 1, is
log entry 6 (DEDUCED from R27). -/
def Obligations.BadResultRegisterFaultsAfterHostCall : Prop :=
  ∀ (s : State) (dst : Byte) (n num : Nat) (data : List Byte), s.params.WF → s.regOf dst = none →
    let faulted := fun u : State => takeFault (.unknownRegister dst) (s.reg .i - 1) u
    (s.hostAnswerTo s.writeRequest = some (.ok num data) →
      exec (.sysWrite dst) s = .next (faulted (s.afterHostCall s.writeRequest))) ∧
    (s.hostAnswerTo s.readRequest = some (.ok num data) → s.params.sysReadSetsDst = true →
      exec (.sysRead dst) s = .next (faulted ((s.afterHostCall s.readRequest).withRamBytes (s.reg .b)
        (data.take (clamp (s.reg .b) (s.reg .c)))))) ∧
    (s.StringAt (s.reg .a) n → s.hostAnswerTo (s.openRequest n) = some (.ok num data) → num ≤ 255 →
      exec (.sysOpen dst) s = .next (faulted (s.afterHostCall (s.openRequest n))))

/-- R285 (decision D24 of the spec): a host call that is never answered has no next state, and the session is not
faulted by it either: `hostNeverAnswers` is the model's name for the stuck state. -/
def Obligations.UnansweredHostCallIsStuck : Prop :=
  ∀ (s : State) (dst : Byte) (rest : List HostReply) (n : Nat), s.params.WF → s.hostScript = .never :: rest →
    exec (.sysWrite dst) s = .fault .hostNeverAnswers ∧ exec (.sysRead dst) s = .fault .hostNeverAnswers ∧
    (s.StringAt (s.reg .a) n → exec (.sysOpen dst) s = .fault .hostNeverAnswers)

/-- R232: narrowing differs on purpose between the two kinds of result: a byte count, as SYS write and SYS read store it,
is taken modulo 256; a descriptor, as SYS open stores it, is a fault when it does not fit in 8 bits. The info recorded,
the descriptor, is R260's, the spec's decision D14, log entry 17. -/
def Obligations.CountsWrapDescriptorsFault : Prop :=
  ∀ (s : State) (dst : Byte) (rd : Reg) (n : Nat), s.params.WF → s.regOf dst = some rd →
    (∃ t, storeCount dst n s = .ok () t ∧ (t.reg rd).toNat = n % 256) ∧
    (n > 255 → storeDescriptor dst n s = .error (.raised (.generic (.descriptorTooWide n))) s) ∧
    (n ≤ 255 → ∃ t, storeDescriptor dst n s = .ok () t ∧ (t.reg rd).toNat = n)

/-! ## Frames -/

/-- What IMM, ADD, LDM, CMP and JMP leave unchanged (R140, R142, R168, R190, R195, R58): every byte of memory and every
register but the destination register (f for CMP, i for JMP), the host's side, and the status unless a fault is taken.
These forms store nothing else. -/
def Obligations.RegisterFormsFrame : Prop :=
  ∀ (s t : State) (l r : Byte), s.params.WF →
    (exec (.imm l r) s = .next t → OnlyBytesChange (s.operandAddress l) s t ∧
      ∀ q, s.regOf l ≠ some q → t.reg q = s.reg q) ∧
    (exec (.add l r) s = .next t → OnlyBytesChange (s.operandAddress l) s t ∧
      ∀ q, s.regOf l ≠ some q → t.reg q = s.reg q) ∧
    (exec (.ldm l r) s = .next t → OnlyBytesChange (s.operandAddress l) s t ∧
      ∀ q, s.regOf l ≠ some q → t.reg q = s.reg q) ∧
    (exec (.cmp l r) s = .next t → OnlyBytesChange (fun a => a = s.regAddress .f) s t ∧
      ∀ q, q ≠ .f → t.reg q = s.reg q) ∧
    (exec (.jmp l r) s = .next t → OnlyBytesChange (fun a => a = s.regAddress .i) s t ∧
      ∀ q, q ≠ .i → t.reg q = s.reg q)

/-- What STM leaves unchanged (R166, R58): every register, every byte of memory but the one at the RAM offset its left
register holds, the host's side, and the status unless a fault is taken. -/
def Obligations.StmFrame : Prop :=
  ∀ (s t : State) (dst src : Byte), s.params.WF → exec (.stm dst src) s = .next t →
    OnlyBytesChange (fun a => ∃ rd, s.regOf dst = some rd ∧ a = ramAddress (s.reg rd)) s t ∧ ∀ q, t.reg q = s.reg q

/-- What STK leaves unchanged (R160, R58): every register but s, which the instruction moves, and the register it pops
into; every byte of memory but theirs and, when it pushes a register, the stack byte at the incremented s; the host's
side, and the status unless a fault is taken. -/
def Obligations.StkFrame : Prop :=
  ∀ (s t : State) (pop push : Byte), s.params.WF → exec (.stk pop push) s = .next t →
    OnlyBytesChange (fun a =>
      (a = s.regAddress .s ∧ (pop ≠ 0 ∨ push ≠ 0)) ∨ (pop ≠ 0 ∧ s.operandAddress pop a) ∨
      (push ≠ 0 ∧ s.regOf push ≠ none ∧ a = ramAddress (s.reg .s + 1))) s t ∧
    ∀ q, q ≠ .s → (pop ≠ 0 → s.regOf pop ≠ some q) → t.reg q = s.reg q

/-- What SYS write, SYS open and SYS with a number that is not read's leave unchanged (R221, R223, R228, R58): every
register and every byte of memory but dst's, the configuration, the parameters, and the status unless a fault is taken.
At the HOST port (`hostScript`, `hostLog`: log entry 23) SYS write makes its one request; SYS open makes its one request,
or none when its path has no end; SYS with an unknown number makes none. -/
def Obligations.SysWriteOpenFrame : Prop :=
  ∀ (s t : State) (num dst : Byte) (i : Instr), s.params.WF →
    i = .sysWrite dst ∨ i = .sysOpen dst ∨ (i = .sys num dst ∧ num ≠ s.cfg.sys.readNum) → exec i s = .next t →
    let opened := (∃ n, s.StringAt (s.reg .a) n ∧ OneHostCall (s.openRequest n) s t) ∨
      (s.Unterminated (s.reg .a) ∧ NoHostCall s t)
    t.cfg = s.cfg ∧ t.params = s.params ∧ StatusKeptOrFaulted s t ∧
    (∀ a, ¬ s.operandAddress dst a → t.mem.read a = s.mem.read a) ∧
    (∀ q, s.regOf dst ≠ some q → t.reg q = s.reg q) ∧
    (i = .sysWrite dst → OneHostCall s.writeRequest s t) ∧ (i = .sysOpen dst → opened) ∧
    (i = .sys num dst → num = s.cfg.sys.writeNum → OneHostCall s.writeRequest s t) ∧
    (i = .sys num dst → num ≠ s.cfg.sys.writeNum → num = s.cfg.sys.openNum → opened) ∧
    (i = .sys num dst → num ∉ s.cfg.sys.toList → NoHostCall s t)

/-- What SYS read leaves unchanged (R226, R227, R58): every register but dst, every byte of memory but dst's and the
bytes the host's answer `ans` brought, which lie from the offset in b up, the configuration, the parameters, and the
status unless a fault is taken. It makes its one request at the HOST port (`hostScript`, `hostLog`: log entry 23). -/
def Obligations.SysReadFrame : Prop :=
  ∀ (s t : State) (dst : Byte) (ans : HostAnswer), s.params.WF → s.hostAnswerTo s.readRequest = some ans →
    exec (.sysRead dst) s = .next t →
    let received := match ans with
      | .err => []
      | .ok _ data => data.take (clamp (s.reg .b) (s.reg .c))
    t.cfg = s.cfg ∧ t.params = s.params ∧ StatusKeptOrFaulted s t ∧ OneHostCall s.readRequest s t ∧
    (∀ a, ¬ (s.params.sysReadSetsDst = true ∧ s.operandAddress dst a) →
      ¬ (ramAddress (s.reg .b) ≤ a ∧ a < ramAddress (s.reg .b) + received.length) →
      t.mem.read a = s.mem.read a) ∧
    (∀ q, s.regOf dst ≠ some q → t.reg q = s.reg q)
end

