-- ==== Sys2Proof/Laws/Decode.lean ====
section
/-! SUPPORT. The pieces decoding and encoding are made of: where a placed field is read, and that a kind's opcode byte
selects that kind. -/

namespace Sys2Proof

@[simp] theorem InstrBytes.get_zero (w : InstrBytes) : w.get 0 = w.w0 := rfl
@[simp] theorem InstrBytes.get_one (w : InstrBytes) : w.get 1 = w.w1 := rfl
@[simp] theorem InstrBytes.get_two (w : InstrBytes) : w.get 2 = w.w2 := rfl

/-- Two triples with the same byte at each place are the same. -/
theorem InstrBytes.ext_get {v w : InstrBytes} (h : ∀ k, v.get k = w.get k) : v = w := by
  obtain ⟨v0, v1, v2⟩ := v
  obtain ⟨w0, w1, w2⟩ := w
  have h0 := h 0
  have h1 := h 1
  have h2 := h 2
  simp only [InstrBytes.get_zero, InstrBytes.get_one, InstrBytes.get_two] at h0 h1 h2
  rw [h0, h1, h2]

@[simp] theorem placeFields_get (fo : FieldOrder) (opc left right : Byte) (k : Fin 3) :
    (placeFields fo opc left right).get k = placedByte fo opc left right k := by
  match k with
  | 0 => rfl
  | 1 => rfl
  | 2 => rfl

theorem FieldOrder.distinct {fo : FieldOrder} (h : fo.IsPermutation) :
    fo.op ≠ fo.left ∧ fo.op ≠ fo.right ∧ fo.left ≠ fo.right := by
  simp only [FieldOrder.IsPermutation, FieldOrder.toList, List.nodup_cons, List.mem_cons, List.not_mem_nil,
    not_or] at h
  exact ⟨h.1.1, h.1.2.1, h.2.1.1⟩

/-- Every place is one of the three fields' (W5). -/
theorem FieldOrder.covers {fo : FieldOrder} (h : fo.IsPermutation) (k : Fin 3) :
    k = fo.op ∨ k = fo.left ∨ k = fo.right := by
  have h := FieldOrder.distinct h
  generalize fo.op = a at *
  generalize fo.left = b at *
  generalize fo.right = c at *
  omega

theorem placedByte_op (fo : FieldOrder) (opc left right : Byte) : placedByte fo opc left right fo.op = opc := by
  simp [placedByte]

theorem placedByte_left {fo : FieldOrder} (h : fo.IsPermutation) (opc left right : Byte) :
    placedByte fo opc left right fo.left = left := by
  simp [placedByte, (FieldOrder.distinct h).1.symm]

theorem placedByte_right {fo : FieldOrder} (h : fo.IsPermutation) (opc left right : Byte) :
    placedByte fo opc left right fo.right = right := by
  simp [placedByte, (FieldOrder.distinct h).2.1.symm, (FieldOrder.distinct h).2.2.symm]

/-- A kind's opcode byte selects that kind (W1). -/
theorem kindOf_ofKind {op : OpCodes} (h : op.toList.Nodup) (k : OpKind) : kindOf op (op.ofKind k) = some k := by
  simp only [OpCodes.toList, List.nodup_cons, List.mem_cons, List.not_mem_nil, not_or] at h
  obtain ⟨⟨h1, h2, h3, h4, h5, h6, h7, -⟩, ⟨i2, i3, i4, i5, i6, i7, -⟩, ⟨j3, j4, j5, j6, j7, -⟩, ⟨k4, k5, k6, k7, -⟩,
    ⟨l5, l6, l7, -⟩, ⟨m6, m7, -⟩, ⟨n7, -⟩, -⟩ := h
  cases k <;> simp only [OpCodes.ofKind, kindOf] <;> simp [*, Ne.symm, eq_comm]

/-- The kind a byte selects has that byte as its opcode. -/
theorem ofKind_of_kindOf {op : OpCodes} {opc : Byte} {k : OpKind} (h : kindOf op opc = some k) :
    op.ofKind k = opc := by
  unfold kindOf at h
  repeat' split at h
  all_goals first | (cases h; simp_all [OpCodes.ofKind]) | simp at h

theorem kindOf_eq_none_iff {op : OpCodes} {opc : Byte} : kindOf op opc = none ↔ opc ∉ op.toList := by
  unfold kindOf
  repeat' split
  all_goals simp_all [OpCodes.toList]

end Sys2Proof
end

