-- ==== Sys2Proof/Laws/Memory.lean ====
section
/-! SUPPORT. The laws of the buffer: what a read after a write answers, and that every memory operation keeps the
canonical form and the buffer's bounds. -/

namespace Sys2Proof.Machine

/-! ## Read after write -/

theorem Memory.read_erase (m : Memory) (a b : Nat) :
    (m.erase a).read b = if b = a then unlistedByte else m.read b := by
  induction m with
  | nil => simp [Memory.erase, Memory.read]
  | cons p rest ih =>
    obtain ⟨k, v⟩ := p
    by_cases hk : k = a
    · subst hk
      by_cases hb : b = k
      · rw [Memory.erase, if_pos rfl, ih, if_pos hb, if_pos hb]
      · simp [Memory.erase, Memory.read, ih, hb, Ne.symm hb]
    · by_cases hb : k = b
      · subst hb; simp [Memory.erase, Memory.read, hk]
      · simp [Memory.erase, Memory.read, ih, hk, hb]

theorem Memory.read_insert (m : Memory) (a b : Nat) (v : Byte)
    (hm : ∀ p ∈ m, p.1 ≠ a) : (m.insert a v).read b = if b = a then v else m.read b := by
  induction m with
  | nil => simp [Memory.insert, Memory.read, eq_comm]
  | cons p rest ih =>
    obtain ⟨k, u⟩ := p
    have hk : k ≠ a := hm (k, u) (by simp)
    have ih' := ih (fun p hp => hm p (by simp [hp]))
    by_cases hlt : a < k
    · by_cases hb : b = a
      · simp [Memory.insert, Memory.read, hlt, hb]
      · simp [Memory.insert, Memory.read, hlt, hb, Ne.symm hb]
    · by_cases hb : k = b
      · subst hb; simp [Memory.insert, Memory.read, hlt, hk]
      · simp [Memory.insert, Memory.read, hlt, hb, ih']

theorem Memory.not_mem_erase (m : Memory) (a : Nat) : ∀ p ∈ m.erase a, p.1 ≠ a := by
  induction m with
  | nil => simp [Memory.erase]
  | cons p rest ih =>
    obtain ⟨k, v⟩ := p
    by_cases hk : k = a
    · simpa [Memory.erase, hk] using ih
    · intro q hq
      rcases (by simpa [Memory.erase, hk] using hq : q = (k, v) ∨ q ∈ Memory.erase rest a) with rfl | hq
      · exact hk
      · exact ih q hq

theorem Memory.mem_of_mem_erase (m : Memory) (a : Nat) : ∀ p ∈ m.erase a, p ∈ m := by
  induction m with
  | nil => simp [Memory.erase]
  | cons p rest ih =>
    obtain ⟨k, v⟩ := p
    intro q hq
    by_cases hk : k = a
    · exact List.mem_cons_of_mem _ (ih q (by simpa [Memory.erase, hk] using hq))
    · rcases (by simpa [Memory.erase, hk] using hq : q = (k, v) ∨ q ∈ Memory.erase rest a) with rfl | hq
      · simp
      · exact List.mem_cons_of_mem _ (ih q hq)

theorem Memory.mem_insert (m : Memory) (a : Nat) (v : Byte) :
    ∀ p ∈ m.insert a v, p = (a, v) ∨ p ∈ m := by
  induction m with
  | nil => simp [Memory.insert]
  | cons p rest ih =>
    obtain ⟨k, u⟩ := p
    intro q hq
    by_cases hlt : a < k
    · simpa [Memory.insert, hlt] using hq
    · rcases (by simpa [Memory.insert, hlt] using hq : q = (k, u) ∨ q ∈ Memory.insert rest a v) with rfl | hq
      · simp
      · rcases ih q hq with h | h
        · exact .inl h
        · exact .inr (List.mem_cons_of_mem _ h)

/-- A byte holds the value last written to it, and a write leaves every other byte alone. -/
theorem Memory.read_write (m : Memory) (a b : Nat) (v : Byte) :
    (m.write a v).read b = if b = a then v else m.read b := by
  unfold Memory.write
  by_cases hv : v = unlistedByte
  · simp [hv, Memory.read_erase]
  · rw [if_neg hv, Memory.read_insert _ _ _ _ (m.not_mem_erase a), Memory.read_erase]
    by_cases hb : b = a <;> simp [hb]

@[simp] theorem Memory.read_write_same (m : Memory) (a : Nat) (v : Byte) : (m.write a v).read a = v := by
  simp [Memory.read_write]

theorem Memory.read_write_other (m : Memory) {a b : Nat} (v : Byte) (h : b ≠ a) :
    (m.write a v).read b = m.read b := by
  simp [Memory.read_write, h]

/-- After a run of bytes is written, an address inside the run reads its byte and every other address reads as before. -/
theorem Memory.read_writeBytes (m : Memory) (a : Nat) (bs : List Byte) (b : Nat) :
    (m.writeBytes a bs).read b = if a ≤ b then bs.getD (b - a) (m.read b) else m.read b := by
  induction bs generalizing m a with
  | nil => simp [Memory.writeBytes]
  | cons v rest ih =>
    rw [Memory.writeBytes, ih, Memory.read_write]
    rcases Nat.lt_trichotomy b a with h | h | h
    · simp [Nat.not_le.mpr h, Nat.not_le.mpr (Nat.lt_succ_of_lt h), Nat.ne_of_lt h]
    · subst h; simp
    · have hs : b - a = (b - (a + 1)) + 1 := by omega
      simp [Nat.le_of_lt h, Nat.succ_le_of_lt h, Nat.ne_of_gt h, hs]

theorem Memory.read_writeBytes_outside (m : Memory) {a : Nat} {bs : List Byte} {b : Nat}
    (h : b < a ∨ a + bs.length ≤ b) : (m.writeBytes a bs).read b = m.read b := by
  rw [Memory.read_writeBytes]
  split
  · have : bs.length ≤ b - a := by omega
    simp [this]
  · rfl

@[simp] theorem Memory.readBytes_length (m : Memory) (a n : Nat) : (m.readBytes a n).length = n := by
  induction n generalizing a with
  | zero => rfl
  | succ n ih => simp [Memory.readBytes, ih]

/-! ## The canonical form -/

theorem Memory.wf_nil : Memory.wf [] := ⟨List.Pairwise.nil, by simp⟩

theorem Memory.wf_erase {m : Memory} (h : m.wf) (a : Nat) : (m.erase a).wf := by
  refine ⟨?_, fun p hp => h.2 p (m.mem_of_mem_erase a p hp)⟩
  have h1 := h.1
  clear h
  induction m with
  | nil => simp [Memory.erase]
  | cons p rest ih =>
    obtain ⟨k, v⟩ := p
    rw [List.pairwise_cons] at h1
    by_cases hk : k = a
    · simpa [Memory.erase, hk] using ih h1.2
    · simp only [Memory.erase, if_neg hk, List.pairwise_cons]
      exact ⟨fun q hq => h1.1 q (Memory.mem_of_mem_erase rest a q hq), ih h1.2⟩

theorem Memory.wf_insert {m : Memory} (h : m.wf) {a : Nat} {v : Byte} (hv : v ≠ unlistedByte)
    (ha : ∀ p ∈ m, p.1 ≠ a) : (m.insert a v).wf := by
  constructor
  · have h1 := h.1
    clear h
    induction m with
    | nil => simp [Memory.insert]
    | cons p rest ih =>
      obtain ⟨k, u⟩ := p
      have hk : k ≠ a := ha (k, u) (by simp)
      rw [List.pairwise_cons] at h1
      by_cases hlt : a < k
      · simp only [Memory.insert, if_pos hlt, List.pairwise_cons]
        refine ⟨fun q hq => ?_, h1⟩
        rcases List.mem_cons.mp hq with rfl | hq
        · exact hlt
        · exact Nat.lt_trans hlt (h1.1 q hq)
      · simp only [Memory.insert, if_neg hlt, List.pairwise_cons]
        refine ⟨fun q hq => ?_, ih (fun p hp => ha p (by simp [hp])) h1.2⟩
        rcases Memory.mem_insert rest a v q hq with rfl | hq
        · show k < a; omega
        · exact h1.1 q hq
  · intro p hp
    rcases m.mem_insert a v p hp with rfl | hp
    · exact hv
    · exact h.2 p hp

/-- A write keeps the canonical form. -/
theorem Memory.wf_write {m : Memory} (h : m.wf) (a : Nat) (v : Byte) : (m.write a v).wf := by
  unfold Memory.write
  split
  · exact Memory.wf_erase h a
  · exact Memory.wf_insert (Memory.wf_erase h a) ‹_› (m.not_mem_erase a)

theorem Memory.wf_writeBytes {m : Memory} (h : m.wf) (a : Nat) (bs : List Byte) : (m.writeBytes a bs).wf := by
  induction bs generalizing m a with
  | nil => exact h
  | cons v rest ih => exact ih (Memory.wf_write h a v) (a + 1)

/-- A write lists nothing but the address written and what was listed before. -/
theorem Memory.mem_write (m : Memory) (a : Nat) (v : Byte) : ∀ p ∈ m.write a v, p.1 = a ∨ p ∈ m := by
  intro p hp
  unfold Memory.write at hp
  split at hp
  · exact .inr (m.mem_of_mem_erase a p hp)
  · rcases Memory.mem_insert _ a v p hp with rfl | hp
    · exact .inl rfl
    · exact .inr (m.mem_of_mem_erase a p hp)

/-! ## The memory of given bytes -/

theorem Memory.ofBytes_above (a : Nat) (bs : List Byte) : ∀ p ∈ Memory.ofBytes a bs, a ≤ p.1 ∧ p.1 < a + bs.length := by
  induction bs generalizing a with
  | nil => simp [Memory.ofBytes]
  | cons v rest ih =>
    intro p hp
    by_cases hv : v = unlistedByte
    · have := ih (a + 1) p (by simpa [Memory.ofBytes, hv] using hp)
      simp only [List.length_cons]; omega
    · rcases (by simpa [Memory.ofBytes, hv] using hp : p = (a, v) ∨ p ∈ Memory.ofBytes (a + 1) rest) with rfl | hp
      · simp
      · have := ih (a + 1) p hp
        simp only [List.length_cons]; omega

theorem Memory.wf_ofBytes (a : Nat) (bs : List Byte) : (Memory.ofBytes a bs).wf := by
  induction bs generalizing a with
  | nil => exact Memory.wf_nil
  | cons v rest ih =>
    by_cases hv : v = unlistedByte
    · simpa [Memory.ofBytes, hv] using ih (a + 1)
    · simp only [Memory.ofBytes, if_neg hv]
      refine ⟨List.pairwise_cons.mpr ⟨fun q hq => ?_, (ih (a + 1)).1⟩, fun p hp => ?_⟩
      · have := (Memory.ofBytes_above (a + 1) rest q hq).1
        show a < q.1; omega
      · rcases List.mem_cons.mp hp with rfl | hp
        · exact hv
        · exact (ih (a + 1)).2 p hp

theorem Memory.read_of_not_mem (m : Memory) (b : Nat) (h : ∀ p ∈ m, p.1 ≠ b) : m.read b = unlistedByte := by
  induction m with
  | nil => rfl
  | cons p rest ih =>
    obtain ⟨k, v⟩ := p
    have hk : k ≠ b := h (k, v) (by simp)
    simp [Memory.read, hk, ih (fun p hp => h p (by simp [hp]))]

/-- The memory of given bytes reads as those bytes, and as nothing written elsewhere. -/
theorem Memory.read_ofBytes (a : Nat) (bs : List Byte) (b : Nat) :
    (Memory.ofBytes a bs).read b = if a ≤ b then bs.getD (b - a) unlistedByte else unlistedByte := by
  induction bs generalizing a with
  | nil => simp [Memory.ofBytes, Memory.read]
  | cons v rest ih =>
    rcases Nat.lt_trichotomy b a with h | h | h
    · rw [if_neg (Nat.not_le.mpr h), Memory.read_of_not_mem]
      intro p hp hb
      have := (Memory.ofBytes_above a (v :: rest) p hp).1
      omega
    · subst h
      by_cases hv : v = unlistedByte
      · rw [Memory.ofBytes, if_pos hv, ih]; simp [hv]
      · simp [Memory.ofBytes, Memory.read, hv]
    · have hs : b - a = (b - (a + 1)) + 1 := by omega
      by_cases hv : v = unlistedByte
      · rw [Memory.ofBytes, if_pos hv, ih]; simp [Nat.le_of_lt h, Nat.succ_le_of_lt h, hs]
      · simp [Memory.ofBytes, Memory.read, hv, Nat.ne_of_lt h, ih, Nat.le_of_lt h, Nat.succ_le_of_lt h, hs]

end Sys2Proof.Machine
end

