-- ==== Sys2Proof/Laws/State.lean ====
section
/-! SUPPORT. One lemma per field per update of the state, so that no proof unfolds a record update. -/

namespace Sys2Proof.Machine

section SetReg
variable (s : State) (r : Reg) (v : Byte)

@[simp] theorem State.setReg_cfg : (s.setReg r v).cfg = s.cfg := rfl
@[simp] theorem State.setReg_params : (s.setReg r v).params = s.params := rfl
@[simp] theorem State.setReg_mem : (s.setReg r v).mem = s.mem.write (s.regAddress r) v := rfl
@[simp] theorem State.setReg_status : (s.setReg r v).status = s.status := rfl
@[simp] theorem State.setReg_hostScript : (s.setReg r v).hostScript = s.hostScript := rfl
@[simp] theorem State.setReg_hostLog : (s.setReg r v).hostLog = s.hostLog := rfl
@[simp] theorem State.setReg_regAddress (q : Reg) : (s.setReg r v).regAddress q = s.regAddress q := rfl
@[simp] theorem State.setReg_regOf (w : Byte) : (s.setReg r v).regOf w = s.regOf w := rfl

end SetReg

section SetRam
variable (s : State) (o v : Byte)

@[simp] theorem State.setRam_cfg : (s.setRam o v).cfg = s.cfg := rfl
@[simp] theorem State.setRam_params : (s.setRam o v).params = s.params := rfl
@[simp] theorem State.setRam_mem : (s.setRam o v).mem = s.mem.write (ramAddress o) v := rfl
@[simp] theorem State.setRam_status : (s.setRam o v).status = s.status := rfl
@[simp] theorem State.setRam_hostScript : (s.setRam o v).hostScript = s.hostScript := rfl
@[simp] theorem State.setRam_hostLog : (s.setRam o v).hostLog = s.hostLog := rfl
@[simp] theorem State.setRam_regAddress (q : Reg) : (s.setRam o v).regAddress q = s.regAddress q := rfl
@[simp] theorem State.setRam_regOf (w : Byte) : (s.setRam o v).regOf w = s.regOf w := rfl

end SetRam

section TakeFault
variable (f : FaultClass) (oldIp : Byte) (s : State)

@[simp] theorem takeFault_cfg : (takeFault f oldIp s).cfg = s.cfg := rfl
@[simp] theorem takeFault_params : (takeFault f oldIp s).params = s.params := rfl
@[simp] theorem takeFault_mem : (takeFault f oldIp s).mem = s.mem := rfl
@[simp] theorem takeFault_status : (takeFault f oldIp s).status = .faulted f oldIp := rfl
@[simp] theorem takeFault_hostScript : (takeFault f oldIp s).hostScript = s.hostScript := rfl
@[simp] theorem takeFault_hostLog : (takeFault f oldIp s).hostLog = s.hostLog := rfl
@[simp] theorem takeFault_reg (r : Reg) : (takeFault f oldIp s).reg r = s.reg r := rfl
@[simp] theorem takeFault_ram (o : Byte) : (takeFault f oldIp s).ram o = s.ram o := rfl

end TakeFault

section AfterHostCall
variable (s : State) (req : HostRequest)

@[simp] theorem State.afterHostCall_cfg : (s.afterHostCall req).cfg = s.cfg := rfl
@[simp] theorem State.afterHostCall_params : (s.afterHostCall req).params = s.params := rfl
@[simp] theorem State.afterHostCall_mem : (s.afterHostCall req).mem = s.mem := rfl
@[simp] theorem State.afterHostCall_status : (s.afterHostCall req).status = s.status := rfl
@[simp] theorem State.afterHostCall_hostScript : (s.afterHostCall req).hostScript = s.hostScript.tail := rfl
@[simp] theorem State.afterHostCall_hostLog : (s.afterHostCall req).hostLog = s.hostLog ++ [req] := rfl
@[simp] theorem State.afterHostCall_reg (r : Reg) : (s.afterHostCall req).reg r = s.reg r := rfl
@[simp] theorem State.afterHostCall_ram (o : Byte) : (s.afterHostCall req).ram o = s.ram o := rfl
@[simp] theorem State.afterHostCall_regAddress (r : Reg) : (s.afterHostCall req).regAddress r = s.regAddress r := rfl
@[simp] theorem State.afterHostCall_regOf (v : Byte) : (s.afterHostCall req).regOf v = s.regOf v := rfl

end AfterHostCall

section PlaceInstr
variable (s : State) (n : Byte) (w : InstrBytes)

@[simp] theorem State.placeInstr_cfg : (s.placeInstr n w).cfg = s.cfg := rfl
@[simp] theorem State.placeInstr_params : (s.placeInstr n w).params = s.params := rfl
@[simp] theorem State.placeInstr_status : (s.placeInstr n w).status = s.status := rfl
@[simp] theorem State.placeInstr_hostScript : (s.placeInstr n w).hostScript = s.hostScript := rfl
@[simp] theorem State.placeInstr_hostLog : (s.placeInstr n w).hostLog = s.hostLog := rfl

end PlaceInstr

end Sys2Proof.Machine
end

