-- ==== Sys2Proof/Laws/Ops.lean ====
section
/-! SUPPORT. The places of the buffer (register bank, RAM window), and what each shared operation does when the buffer
holds the bank (Params.WF): later proofs cite these and do not unfold an operation. -/

namespace Sys2Proof.Machine

/-! ## Places -/

theorem State.regAddress_bounds (s : State) (r : Reg) : 0x400 ≤ s.regAddress r ∧ s.regAddress r < 0x407 := by
  have := (s.params.regAddr.slot r).isLt
  unfold State.regAddress bankBase
  omega

theorem ramAddress_bounds (o : Byte) : 0x300 ≤ ramAddress o ∧ ramAddress o < 0x400 := by
  have := o.isLt
  unfold ramAddress ramBase
  omega

theorem ramAddress_ne_regAddress (s : State) (o : Byte) (r : Reg) : ramAddress o ≠ s.regAddress r := by
  have h1 := ramAddress_bounds o
  have h2 := s.regAddress_bounds r
  omega

theorem ramAddress_inj {o p : Byte} (h : ramAddress o = ramAddress p) : o = p := by
  unfold ramAddress at h
  exact BitVec.eq_of_toNat_eq (by omega)

theorem RegAddr.slot_inj {m : RegAddr} (h : m.IsBijection) {q r : Reg} (hqr : m.slot q = m.slot r) : q = r := by
  simp only [RegAddr.IsBijection, RegAddr.toList, List.nodup_cons, List.mem_cons, List.not_mem_nil, not_or] at h
  cases q <;> cases r <;> simp_all [RegAddr.slot]

/-- Two registers share no byte (D1: REG_ADDR is a bijection). -/
theorem State.regAddress_inj {s : State} (h : s.params.Launchable) {q r : Reg} (hqr : s.regAddress q = s.regAddress r) :
    q = r := by
  refine RegAddr.slot_inj h.1 (Fin.ext ?_)
  unfold State.regAddress at hqr
  omega

@[simp] theorem State.reg_setReg_same (s : State) (r : Reg) (v : Byte) : (s.setReg r v).reg r = v := by
  simp [State.reg]

theorem State.reg_setReg_other {s : State} (h : s.params.Launchable) {q r : Reg} (hqr : q ≠ r) (v : Byte) :
    (s.setReg r v).reg q = s.reg q := by
  simp only [State.reg, State.setReg_mem, State.setReg_regAddress]
  exact Memory.read_write_other _ _ fun he => hqr (State.regAddress_inj h he)

@[simp] theorem State.ram_setReg (s : State) (r : Reg) (v o : Byte) : (s.setReg r v).ram o = s.ram o := by
  simp only [State.ram, State.setReg_mem]
  exact Memory.read_write_other _ _ (ramAddress_ne_regAddress s o r)

@[simp] theorem State.reg_setRam (s : State) (o v : Byte) (r : Reg) : (s.setRam o v).reg r = s.reg r := by
  simp only [State.reg, State.setRam_mem, State.setRam_regAddress]
  exact Memory.read_write_other _ _ (ramAddress_ne_regAddress s o r).symm

@[simp] theorem State.ram_setRam_same (s : State) (o v : Byte) : (s.setRam o v).ram o = v := by
  simp [State.ram]

theorem State.ram_setRam_other (s : State) {o p : Byte} (v : Byte) (h : p ≠ o) : (s.setRam o v).ram p = s.ram p := by
  simp only [State.ram, State.setRam_mem]
  exact Memory.read_write_other _ _ fun he => h (ramAddress_inj he)

/-! ## Running an action -/

section Run
variable {α β : Type}

theorem Act.bind_ok {x : Act α} {f : α → Act β} {s t : State} {a : α} (h : x s = .ok a t) : (x >>= f) s = f a t := by
  show EStateM.bind x f s = _
  simp [EStateM.bind, h]

theorem Act.bind_error {x : Act α} {f : α → Act β} {s t : State} {e : Stop} (h : x s = .error e t) :
    (x >>= f) s = .error e t := by
  show EStateM.bind x f s = _
  simp [EStateM.bind, h]

theorem look_eq (g : State → α) (s : State) : look g s = .ok (g s) s := rfl

theorem update_eq (g : State → State) (s : State) : update g s = .ok () (g s) := rfl

theorem Act.pure_eq (a : α) (s : State) : (pure a : Act α) s = .ok a s := rfl

end Run

theorem runInstr_ok {act : Act Unit} {s t : State} (h : act s = .ok () t) : runInstr act s = .next t := by
  simp [runInstr, h, settle]

theorem runInstr_raised {act : Act Unit} {s t : State} {f : FaultClass} (h : act s = .error (.raised f) t) :
    runInstr act s = .next (takeFault f s.currentIndex t) := by
  simp [runInstr, h, settle]

theorem runInstr_stalled {act : Act Unit} {s t : State} (h : act s = .error .stalled t) :
    runInstr act s = .fault .hostNeverAnswers := by
  simp [runInstr, h, settle]

/-! ## The accesses of a buffer that holds the bank -/

theorem readReg_eq {s : State} (h : s.params.WF) (r : Reg) : readReg r s = .ok (s.reg r) s := by
  have h1 := s.regAddress_bounds r
  have h2 := h.2
  exact if_pos (by omega)

theorem writeReg_eq {s : State} (h : s.params.WF) (r : Reg) (v : Byte) : writeReg r v s = .ok () (s.setReg r v) := by
  have h1 := s.regAddress_bounds r
  have h2 := h.2
  exact if_pos (by omega)

theorem readRam_eq {s : State} (h : s.params.WF) (o : Byte) : readRam o s = .ok (s.ram o) s := by
  have h1 := ramAddress_bounds o
  have h2 := h.2
  exact if_pos (by omega)

theorem writeRam_eq {s : State} (h : s.params.WF) (o v : Byte) : writeRam o v s = .ok () (s.setRam o v) := by
  have h1 := ramAddress_bounds o
  have h2 := h.2
  exact if_pos (by omega)

theorem checkRange_eq {s : State} {addr n : Nat} (h : addr + n ≤ s.params.memSize) : checkRange addr n s = .ok () s :=
  if_pos h

/-! ## Operands -/

theorem resolve_some {s : State} {v : Byte} {r : Reg} (h : s.regOf v = some r) : resolve v s = .ok r s := by
  simp [resolve, h]

theorem resolve_none {s : State} {v : Byte} (h : s.regOf v = none) :
    resolve v s = .error (.raised (.unknownRegister v)) s := by
  simp [resolve, h]

theorem readId_some {s : State} (hp : s.params.WF) {v : Byte} {r : Reg} (h : s.regOf v = some r) :
    readId v s = .ok (s.reg r) s := by
  rw [readId, Act.bind_ok (resolve_some h), readReg_eq hp]

theorem readId_none {s : State} {v : Byte} (h : s.regOf v = none) :
    readId v s = .error (.raised (.unknownRegister v)) s :=
  Act.bind_error (resolve_none h)

theorem writeId_some {s : State} (hp : s.params.WF) {v : Byte} {r : Reg} (h : s.regOf v = some r) (x : Byte) :
    writeId v x s = .ok () (s.setReg r x) := by
  rw [writeId, Act.bind_ok (resolve_some h), writeReg_eq hp]

theorem writeId_none {s : State} {v : Byte} (h : s.regOf v = none) (x : Byte) :
    writeId v x s = .error (.raised (.unknownRegister v)) s :=
  Act.bind_error (resolve_none h)

/-! ## The HOST port -/

theorem hostCall_some {s : State} {req : HostRequest} {a : HostAnswer} (h : s.hostAnswerTo req = some a) :
    hostCall req s = .ok a (s.afterHostCall req) := by
  simp [hostCall, h]

theorem hostCall_none {s : State} {req : HostRequest} (h : s.hostAnswerTo req = none) :
    hostCall req s = .error .stalled s := by
  simp [hostCall, h]

/-- A RAM slice inside the window is a run of the buffer's bytes. -/
theorem readRamSlice_eq {s : State} (h : s.params.WF) {off : Byte} {n : Nat} (hn : off.toNat + n ≤ 256) :
    readRamSlice off n s = .ok (s.mem.readBytes (ramAddress off) n) s := by
  induction n generalizing off with
  | zero => rfl
  | succ n ih =>
    rw [readRamSlice, Act.bind_ok (readRam_eq h off)]
    rcases Nat.eq_zero_or_pos n with rfl | hpos
    · rw [Act.bind_ok (show readRamSlice (off + 1) 0 s = .ok [] s from rfl)]
      rfl
    · have hadd : (off + 1).toNat = off.toNat + 1 := by rw [BitVec.toNat_add]; simp; omega
      rw [Act.bind_ok (ih (off := off + 1) (by omega)), Act.pure_eq]
      have ha : ramAddress (off + 1) = ramAddress off + 1 := by unfold ramAddress; omega
      rw [Memory.readBytes, ha]
      rfl

/-- Bytes written into the window are written as one run of the buffer. -/
theorem writeRamSlice_eq {s : State} (h : s.params.WF) {off : Byte} {data : List Byte}
    (hn : off.toNat + data.length ≤ 256) :
    writeRamSlice off data s = .ok () { s with mem := s.mem.writeBytes (ramAddress off) data } := by
  induction data generalizing s off with
  | nil => rfl
  | cons v rest ih =>
    rw [List.length_cons] at hn
    rw [writeRamSlice, Act.bind_ok (writeRam_eq h off v)]
    rcases rest with _ | ⟨w, more⟩
    · rfl
    · have hadd : (off + 1).toNat = off.toNat + 1 := by
        rw [BitVec.toNat_add]; simp at hn ⊢; omega
      have ha : ramAddress (off + 1) = ramAddress off + 1 := by unfold ramAddress; omega
      rw [ih (s := s.setRam off v) (off := off + 1) h (by omega), ha]
      rfl

theorem clamp_le (off len : Byte) : off.toNat + clamp off len ≤ 256 := by
  have := off.isLt
  unfold clamp
  omega

end Sys2Proof.Machine
end

