-- ==== Sys2Proof/Laws/Effects.lean ====
section
/-! SUPPORT. What any action can do to the state, said once: `Act.Does` holds of every shared operation and of every
instruction's pseudocode. The invariants of a step are read off it. -/

namespace Sys2Proof.Machine

/-- What an action may change between two states: bytes at or above the RAM window, the host's script (from its front)
and the request history (at its end); the canonical form and the buffer's bounds are kept. -/
structure Effect (s t : State) : Prop where
  cfg       : t.cfg = s.cfg
  params    : t.params = s.params
  status    : t.status = s.status
  code      : ∀ a, a < ramBase → t.mem.read a = s.mem.read a
  canonical : s.mem.wf → t.mem.wf
  inBuffer  : (∀ p ∈ s.mem, p.1 < s.params.memSize) → ∀ p ∈ t.mem, p.1 < t.params.memSize
  log       : s.hostLog <+: t.hostLog
  script    : t.hostScript <:+ s.hostScript

theorem Effect.refl (s : State) : Effect s s :=
  ⟨rfl, rfl, rfl, fun _ _ => rfl, id, id, List.prefix_rfl, List.suffix_rfl⟩

theorem Effect.trans {s t u : State} (h : Effect s t) (k : Effect t u) : Effect s u where
  cfg := k.cfg.trans h.cfg
  params := k.params.trans h.params
  status := k.status.trans h.status
  code a ha := (k.code a ha).trans (h.code a ha)
  canonical hw := k.canonical (h.canonical hw)
  inBuffer hb := k.inBuffer (h.inBuffer hb)
  log := h.log.trans k.log
  script := k.script.trans h.script

/-- The state an action leaves, at its end or at its stop. -/
def finalState {α : Type} : EStateM.Result Stop State α → State
  | .ok _ t => t
  | .error _ t => t

/-- The action has no other effect than `Effect`, from every state. -/
def Act.Does {α : Type} (x : Act α) : Prop := ∀ s, Effect s (finalState (x s))

section
variable {α β : Type}

theorem Act.Does.pure (a : α) : Act.Does (pure a : Act α) := fun s => Effect.refl s

theorem Act.Does.bind {x : Act α} {f : α → Act β} (hx : x.Does) (hf : ∀ a, (f a).Does) : Act.Does (x >>= f) := by
  intro s
  have h := hx s
  rcases hr : x s with ⟨a, t⟩ | ⟨e, t⟩
  · rw [Act.bind_ok hr]; rw [hr] at h; exact h.trans (hf a t)
  · rw [Act.bind_error hr]; rw [hr] at h; exact h

theorem Act.Does.raise (f : FaultClass) : Act.Does (raise f : Act α) := fun s => Effect.refl s

/-- A write of one byte at or above the RAM window and inside the buffer. -/
theorem Effect.write {s : State} {a : Nat} (h1 : ramBase ≤ a) (h2 : a + 1 ≤ s.params.memSize) (v : Byte) :
    Effect s { s with mem := s.mem.write a v } where
  cfg := rfl
  params := rfl
  status := rfl
  code b hb := Memory.read_write_other _ _ (by omega)
  canonical hw := Memory.wf_write hw a v
  inBuffer hb p hp := by
    rcases s.mem.mem_write a v p hp with h | h
    · show p.1 < s.params.memSize; omega
    · exact hb p h
  log := List.prefix_rfl
  script := List.suffix_rfl

theorem look_does (g : State → α) : (look g).Does := fun s => Effect.refl s

theorem readReg_does (r : Reg) : (readReg r).Does := by
  intro s
  unfold readReg
  split <;> exact Effect.refl s

theorem writeReg_does (r : Reg) (v : Byte) : (writeReg r v).Does := by
  intro s
  unfold writeReg
  split
  · have := s.regAddress_bounds r
    exact Effect.write (by unfold ramBase; omega) ‹_› v
  · exact Effect.refl s

theorem readRam_does (o : Byte) : (readRam o).Does := by
  intro s
  unfold readRam
  split <;> exact Effect.refl s

theorem writeRam_does (o v : Byte) : (writeRam o v).Does := by
  intro s
  unfold writeRam
  split
  · exact Effect.write (by unfold ramAddress; omega) ‹_› v
  · exact Effect.refl s

theorem checkRange_does (addr n : Nat) : (checkRange addr n).Does := by
  intro s
  unfold checkRange
  split <;> exact Effect.refl s

theorem resolve_does (v : Byte) : (resolve v).Does := by
  intro s
  unfold resolve
  split <;> exact Effect.refl s

theorem readId_does (v : Byte) : (readId v).Does := (resolve_does v).bind readReg_does

theorem writeId_does (v x : Byte) : (writeId v x).Does := (resolve_does v).bind fun r => writeReg_does r x

theorem hostCall_does (req : HostRequest) : (hostCall req).Does := by
  intro s
  unfold hostCall
  split
  · exact ⟨rfl, rfl, rfl, fun _ _ => rfl, id, id, List.prefix_append _ _, List.tail_suffix _⟩
  · exact Effect.refl s

theorem hostWrite_does (fd : Byte) (bytes : List Byte) : (hostWrite fd bytes).Does :=
  (hostCall_does _).bind fun a => by cases a <;> exact Act.Does.pure _

theorem hostRead_does (fd : Byte) (n : Nat) : (hostRead fd n).Does :=
  (hostCall_does _).bind fun a => by cases a <;> exact Act.Does.pure _

theorem hostOpen_does (path : List Byte) (flags mode : Byte) : (hostOpen path flags mode).Does :=
  (look_does _).bind fun _ => (hostCall_does _).bind fun a => by cases a <;> exact Act.Does.pure _

theorem readRamSlice_does (off : Byte) (n : Nat) : (readRamSlice off n).Does := by
  induction n generalizing off with
  | zero => exact Act.Does.pure _
  | succ n ih => exact (readRam_does off).bind fun _ => (ih (off + 1)).bind fun _ => Act.Does.pure _

theorem writeRamSlice_does (off : Byte) (data : List Byte) : (writeRamSlice off data).Does := by
  induction data generalizing off with
  | nil => exact Act.Does.pure _
  | cons v rest ih => exact (writeRam_does off v).bind fun _ => ih (off + 1)

theorem readStringFrom_does (start off : Byte) (fuel : Nat) : (readStringFrom start off fuel).Does := by
  induction fuel generalizing off with
  | zero => exact Act.Does.raise _
  | succ n ih =>
    refine (readRam_does off).bind fun b => ?_
    by_cases h : b = 0x00
    · simp only [h, if_true]; exact Act.Does.pure _
    · simp only [h, if_false]; exact (ih (off + 1)).bind fun _ => Act.Does.pure _

theorem stkPush_does (push : Byte) : (stkPush push).Does := by
  unfold stkPush
  split
  · exact Act.Does.pure _
  · exact (readReg_does _).bind fun _ => (writeReg_does _ _).bind fun _ => (readId_does _).bind fun _ =>
      (readReg_does _).bind fun _ => writeRam_does _ _

theorem stkPop_does (pop : Byte) : (stkPop pop).Does := by
  unfold stkPop
  split
  · exact Act.Does.pure _
  · exact (readReg_does _).bind fun _ => (readRam_does _).bind fun _ => (writeId_does _ _).bind fun _ =>
      (readReg_does _).bind fun _ => writeReg_does _ _

theorem sysWriteAct_does (dst : Byte) : (sysWriteAct dst).Does :=
  (readReg_does _).bind fun _ => (readReg_does _).bind fun _ => (readReg_does _).bind fun _ =>
    (readRamSlice_does _ _).bind fun _ => (hostWrite_does _ _).bind fun r => by
      cases r
      · exact Act.Does.pure _
      · exact writeId_does _ _

theorem storeReadCount_does (dst : Byte) (m : Nat) : (storeReadCount dst m).Does := by
  intro s
  unfold storeReadCount
  split
  · exact writeId_does dst _ s
  · exact Effect.refl s

theorem sysReadAct_does (dst : Byte) : (sysReadAct dst).Does :=
  (readReg_does _).bind fun _ => (readReg_does _).bind fun _ => (readReg_does _).bind fun _ =>
    (hostRead_does _ _).bind fun r => by
      cases r
      · exact Act.Does.pure _
      · exact (writeRamSlice_does _ _).bind fun _ => storeReadCount_does dst _

theorem storeDescriptor_does (dst : Byte) (desc : Nat) : (storeDescriptor dst desc).Does := by
  unfold storeDescriptor
  split
  · exact Act.Does.raise _
  · exact writeId_does _ _

theorem sysOpenAct_does (dst : Byte) : (sysOpenAct dst).Does :=
  (readReg_does _).bind fun _ => (readStringFrom_does _ _ _).bind fun _ => (readReg_does _).bind fun _ =>
    (readReg_does _).bind fun _ => (hostOpen_does _ _ _).bind fun r => by
      cases r
      · exact Act.Does.pure _
      · exact storeDescriptor_does _ _

theorem sysAct_does (num dst : Byte) : (sysAct num dst).Does := by
  intro s
  unfold sysAct
  split
  · exact sysWriteAct_does dst s
  split
  · exact sysReadAct_does dst s
  split
  · exact sysOpenAct_does dst s
  · exact Effect.refl s

theorem nextIndex_does : nextIndex.Does := by
  refine (readReg_does _).bind fun b => ?_
  by_cases h : b = 0xFF
  · simp only [h, if_true]; exact Act.Does.raise _
  · simp only [h, if_false]; exact (writeReg_does _ _).bind fun _ => Act.Does.pure _

theorem decodeFetched_does (w : InstrBytes) : (decodeFetched w).Does := by
  intro s
  unfold decodeFetched
  split <;> exact Effect.refl s

theorem fetchDecode_does : fetchDecode.Does :=
  nextIndex_does.bind fun _ => Act.Does.bind ((checkRange_does _ _).bind fun _ => look_does _)
    fun w => decodeFetched_does w

end

/-- The end of a step from its action: a next state is the action's final state, or that state with a fault taken. -/
theorem settle_cases {oldIp : Byte} {r : EStateM.Result Stop State Unit} {t : State} (h : settle oldIp r = .next t) :
    (r = .ok () t) ∨ ∃ f u, r = .error (.raised f) u ∧ t = takeFault f oldIp u := by
  rcases r with ⟨⟨⟩, u⟩ | ⟨⟨f⟩ | _, u⟩ <;> simp [settle] at h
  · exact .inl (by rw [h])
  · exact .inr ⟨f, u, rfl, h.symm⟩

/-- What every instruction does (with R261): `Effect`, and then its fault, if it raises one. -/
theorem runInstr_does {act : Act Unit} (ha : act.Does) {s t : State} (h : runInstr act s = .next t) :
    ∃ u, Effect s u ∧ (t = u ∨ ∃ f, t = takeFault f s.currentIndex u) := by
  have he := ha s
  rcases settle_cases h with hr | ⟨f, u, hr, rfl⟩ <;> rw [hr] at he
  · exact ⟨t, he, .inl rfl⟩
  · exact ⟨u, he, .inr ⟨f, rfl⟩⟩

/-- What `exec` does, over all instructions: one direct call each. -/
theorem exec_does (i : Instr) {s t : State} (h : exec i s = .next t) :
    ∃ u, Effect s u ∧ (t = u ∨ ∃ f, t = takeFault f s.currentIndex u) := by
  cases i with
  | imm dst val => exact runInstr_does (writeId_does dst val) h
  | add dst src =>
    exact runInstr_does ((resolve_does dst).bind fun _ => (readId_does src).bind fun _ =>
      (readReg_does _).bind fun _ => writeReg_does _ _) h
  | stk pop push => exact runInstr_does ((stkPush_does push).bind fun _ => stkPop_does pop) h
  | stm dst src =>
    exact runInstr_does ((readId_does dst).bind fun _ => (readId_does src).bind fun _ => writeRam_does _ _) h
  | ldm dst src =>
    exact runInstr_does ((readId_does src).bind fun _ => (readRam_does _).bind fun _ => writeId_does dst _) h
  | cmp left right =>
    exact runInstr_does ((readId_does left).bind fun _ => (readId_does right).bind fun _ => writeReg_does _ _) h
  | jmp flags dst =>
    refine runInstr_does ((readReg_does .f).bind fun fl => ?_) h
    by_cases ht : jumpTaken fl flags = true
    · simp only [ht, if_true]; exact (readId_does dst).bind fun _ => writeReg_does _ _
    · simp only [ht]; exact Act.Does.pure _
  | sys num dst => exact runInstr_does (sysAct_does num dst) h
  | sysWrite dst => exact runInstr_does (sysWriteAct_does dst) h
  | sysRead dst => exact runInstr_does (sysReadAct_does dst) h
  | sysOpen dst => exact runInstr_does (sysOpenAct_does dst) h

end Sys2Proof.Machine
end

