-- ==== Sys2Proof/Laws/Faults.lean ====
section
/-! SUPPORT. Where an action can stop (60_exceptions.md R264): in a session whose buffer holds the bank, an instruction
stops only before it writes i, and never with AddressOutOfRange or IpOverflow. -/

namespace Sys2Proof.Machine

/-- A stop that an instruction's own pseudocode can end in. -/
def Stop.InStage5 : Stop → Prop
  | .raised (.addressOutOfRange _) => False
  | .raised (.generic .ipOverflow) => False
  | .raised _ => True
  | .stalled => True

/-- Every stop of the action leaves i as it was and is one of stage 5. -/
def Act.Ends {α : Type} (x : Act α) : Prop :=
  ∀ s : State, s.params.WF → ∀ e t, x s = .error e t → t.reg .i = s.reg .i ∧ e.InStage5

/-- The action ends like `Ends` and, when it ends normally, leaves i as it was. -/
structure Act.Quiet {α : Type} (x : Act α) : Prop where
  ends : x.Ends
  ok   : ∀ s : State, s.params.WF → ∀ a t, x s = .ok a t → t.reg .i = s.reg .i ∧ t.params = s.params

section
variable {α β : Type}

theorem Act.Ends.pure (a : α) : Act.Ends (pure a : Act α) := by
  intro s _ e t h
  simp [Act.pure_eq] at h

theorem Act.Quiet.pure (a : α) : Act.Quiet (pure a : Act α) where
  ends := Act.Ends.pure a
  ok s _ b t h := by
    simp [Act.pure_eq] at h
    rw [h.2]
    exact ⟨rfl, rfl⟩

theorem Act.Quiet.bind_ends {x : Act α} {f : α → Act β} (hx : x.Quiet) (hf : ∀ a, (f a).Ends) :
    Act.Ends (x >>= f) := by
  intro s hp e t h
  rcases hr : x s with ⟨a, u⟩ | ⟨e', u⟩
  · have h1 := hx.ok s hp a u hr
    rw [Act.bind_ok hr] at h
    have h2 := hf a u (by rw [h1.2]; exact hp) e t h
    exact ⟨h2.1.trans h1.1, h2.2⟩
  · rw [Act.bind_error hr] at h
    cases h
    exact hx.ends s hp e t hr

theorem Act.Quiet.bind {x : Act α} {f : α → Act β} (hx : x.Quiet) (hf : ∀ a, (f a).Quiet) :
    Act.Quiet (x >>= f) where
  ends := hx.bind_ends fun a => (hf a).ends
  ok s hp b t h := by
    rcases hr : x s with ⟨a, u⟩ | ⟨e', u⟩
    · have h1 := hx.ok s hp a u hr
      rw [Act.bind_ok hr] at h
      have h2 := (hf a).ok u (by rw [h1.2]; exact hp) b t h
      exact ⟨h2.1.trans h1.1, h2.2.trans h1.2⟩
    · rw [Act.bind_error hr] at h
      cases h

/-- An action that, in a buffer that holds the bank, ends normally in a state with the same i. -/
theorem Act.Quiet.of_ok {x : Act α} (g : State → α) (n : State → State)
    (h : ∀ s : State, s.params.WF → x s = .ok (g s) (n s))
    (hi : ∀ s : State, s.params.WF → (n s).reg .i = s.reg .i ∧ (n s).params = s.params) : x.Quiet where
  ends s hp e t he := by
    rw [h s hp] at he
    cases he
  ok s hp a t ht := by
    rw [h s hp] at ht
    cases ht
    exact hi s hp

theorem look_quiet (g : State → α) : (look g).Quiet :=
  .of_ok g id (fun _ _ => rfl) fun _ _ => ⟨rfl, rfl⟩

theorem readReg_quiet (r : Reg) : (readReg r).Quiet :=
  .of_ok (fun s => s.reg r) id (fun _ hp => readReg_eq hp r) fun _ _ => ⟨rfl, rfl⟩

theorem readRam_quiet (o : Byte) : (readRam o).Quiet :=
  .of_ok (fun s => s.ram o) id (fun _ hp => readRam_eq hp o) fun _ _ => ⟨rfl, rfl⟩

theorem writeRam_quiet (o v : Byte) : (writeRam o v).Quiet :=
  .of_ok (fun _ => ()) (fun s => s.setRam o v) (fun _ hp => writeRam_eq hp o v) fun s _ => ⟨s.reg_setRam o v .i, rfl⟩

theorem writeReg_quiet {r : Reg} (hr : Reg.i ≠ r) (v : Byte) : (writeReg r v).Quiet :=
  .of_ok (fun _ => ()) (fun s => s.setReg r v) (fun _ hp => writeReg_eq hp r v)
    fun _ hp => ⟨State.reg_setReg_other hp.1 hr v, rfl⟩

theorem writeReg_ends (r : Reg) (v : Byte) : (writeReg r v).Ends := by
  intro s hp e t h
  rw [writeReg_eq hp] at h
  cases h

theorem resolve_quiet (v : Byte) : (resolve v).Quiet where
  ends s _ e t h := by
    rcases hr : s.regOf v with _ | r
    · rw [resolve_none hr] at h
      cases h
      exact ⟨rfl, trivial⟩
    · rw [resolve_some hr] at h
      cases h
  ok s _ _ t h := by
    rcases hr : s.regOf v with _ | r
    · rw [resolve_none hr] at h
      cases h
    · rw [resolve_some hr] at h
      cases h
      exact ⟨rfl, rfl⟩

theorem readId_quiet (v : Byte) : (readId v).Quiet := (resolve_quiet v).bind readReg_quiet

theorem writeId_ends (v x : Byte) : (writeId v x).Ends := (resolve_quiet v).bind_ends fun r => writeReg_ends r x

theorem hostCall_quiet (req : HostRequest) : (hostCall req).Quiet where
  ends s _ e t h := by
    rcases hr : s.hostAnswerTo req with _ | a
    · rw [hostCall_none hr] at h
      cases h
      exact ⟨rfl, trivial⟩
    · rw [hostCall_some hr] at h
      cases h
  ok s _ a t h := by
    rcases hr : s.hostAnswerTo req with _ | a
    · rw [hostCall_none hr] at h
      cases h
    · rw [hostCall_some hr] at h
      cases h
      exact ⟨rfl, rfl⟩

theorem hostWrite_quiet (fd : Byte) (bytes : List Byte) : (hostWrite fd bytes).Quiet :=
  (hostCall_quiet _).bind fun a => by cases a <;> exact Act.Quiet.pure _

theorem hostRead_quiet (fd : Byte) (n : Nat) : (hostRead fd n).Quiet :=
  (hostCall_quiet _).bind fun a => by cases a <;> exact Act.Quiet.pure _

theorem hostOpen_quiet (path : List Byte) (flags mode : Byte) : (hostOpen path flags mode).Quiet :=
  (look_quiet _).bind fun _ => (hostCall_quiet _).bind fun a => by cases a <;> exact Act.Quiet.pure _

theorem readRamSlice_quiet (off : Byte) (n : Nat) : (readRamSlice off n).Quiet := by
  induction n generalizing off with
  | zero => exact Act.Quiet.pure _
  | succ n ih => exact (readRam_quiet off).bind fun _ => (ih (off + 1)).bind fun _ => Act.Quiet.pure _

theorem writeRamSlice_quiet (off : Byte) (data : List Byte) : (writeRamSlice off data).Quiet := by
  induction data generalizing off with
  | nil => exact Act.Quiet.pure _
  | cons v rest ih => exact (writeRam_quiet off v).bind fun _ => ih (off + 1)

theorem readStringFrom_quiet (start off : Byte) (fuel : Nat) : (readStringFrom start off fuel).Quiet := by
  induction fuel generalizing off with
  | zero => exact ⟨fun s _ e t h => by cases h; exact ⟨rfl, trivial⟩, fun s _ a t h => by cases h⟩
  | succ n ih =>
    refine (readRam_quiet off).bind fun b => ?_
    by_cases h : b = 0x00
    · simp only [h, if_true]
      exact Act.Quiet.pure _
    · simp only [h, if_false]
      exact (ih (off + 1)).bind fun _ => Act.Quiet.pure _

theorem stkPush_quiet (push : Byte) : (stkPush push).Quiet := by
  unfold stkPush
  split
  · exact Act.Quiet.pure _
  · exact (readReg_quiet _).bind fun _ => (writeReg_quiet (by decide) _).bind fun _ => (readId_quiet _).bind fun _ =>
      (readReg_quiet _).bind fun _ => writeRam_quiet _ _

theorem stkPop_ends (pop : Byte) : (stkPop pop).Ends := by
  unfold stkPop
  split
  · exact Act.Ends.pure _
  · refine (readReg_quiet _).bind_ends fun top => (readRam_quiet _).bind_ends fun v => ?_
    intro s hp e t h
    rcases hr : s.regOf pop with _ | r
    · rw [Act.bind_error (writeId_none hr v)] at h
      cases h
      exact ⟨rfl, trivial⟩
    · have hp' : (s.setReg r v).params.WF := hp
      rw [Act.bind_ok (writeId_some hp hr v), Act.bind_ok (readReg_eq hp' .s), writeReg_eq hp'] at h
      cases h

theorem storeDescriptor_ends (dst : Byte) (desc : Nat) : (storeDescriptor dst desc).Ends := by
  unfold storeDescriptor
  split
  · intro s _ e t h
    cases h
    exact ⟨rfl, trivial⟩
  · exact writeId_ends _ _

theorem storeReadCount_ends (dst : Byte) (m : Nat) : (storeReadCount dst m).Ends := by
  intro s hp e t h
  unfold storeReadCount at h
  split at h
  · exact writeId_ends dst _ s hp e t h
  · cases h

theorem sysWriteAct_ends (dst : Byte) : (sysWriteAct dst).Ends :=
  (readReg_quiet _).bind_ends fun _ => (readReg_quiet _).bind_ends fun _ => (readReg_quiet _).bind_ends fun _ =>
    (readRamSlice_quiet _ _).bind_ends fun _ => (hostWrite_quiet _ _).bind_ends fun r => by
      cases r
      · exact Act.Ends.pure _
      · exact writeId_ends _ _

theorem sysReadAct_ends (dst : Byte) : (sysReadAct dst).Ends :=
  (readReg_quiet _).bind_ends fun _ => (readReg_quiet _).bind_ends fun _ => (readReg_quiet _).bind_ends fun _ =>
    (hostRead_quiet _ _).bind_ends fun r => by
      cases r
      · exact Act.Ends.pure _
      · exact (writeRamSlice_quiet _ _).bind_ends fun _ => storeReadCount_ends dst _

theorem sysOpenAct_ends (dst : Byte) : (sysOpenAct dst).Ends :=
  (readReg_quiet _).bind_ends fun _ => (readStringFrom_quiet _ _ _).bind_ends fun _ =>
    (readReg_quiet _).bind_ends fun _ => (readReg_quiet _).bind_ends fun _ => (hostOpen_quiet _ _ _).bind_ends fun r => by
      cases r
      · exact Act.Ends.pure _
      · exact storeDescriptor_ends _ _

theorem sysAct_ends (num dst : Byte) : (sysAct num dst).Ends := by
  intro s hp e t h
  unfold sysAct at h
  split at h
  · exact sysWriteAct_ends dst s hp e t h
  split at h
  · exact sysReadAct_ends dst s hp e t h
  split at h
  · exact sysOpenAct_ends dst s hp e t h
  · cases h
    exact ⟨rfl, trivial⟩

end

/-- Where an instruction's next state is a fault's, i is as it was and the fault is one of stage 5. -/
theorem runInstr_ends {act : Act Unit} (ha : act.Ends) {s t : State} (hp : s.params.WF)
    (h : runInstr act s = .next t) :
    act s = .ok () t ∨
      ∃ f, t.status = .faulted f s.currentIndex ∧ t.reg .i = s.reg .i ∧ (Stop.raised f).InStage5 := by
  rcases settle_cases h with hr | ⟨f, u, hr, rfl⟩
  · exact .inl hr
  · have hu := ha s hp _ _ hr
    exact .inr ⟨f, rfl, hu.1, hu.2⟩

/-- The same over all instructions; a normal end keeps the status. -/
theorem exec_ends (i : Instr) {s t : State} (hp : s.params.WF) (h : exec i s = .next t) :
    t.status = s.status ∨
      ∃ f, t.status = .faulted f s.currentIndex ∧ t.reg .i = s.reg .i ∧ (Stop.raised f).InStage5 := by
  have close : ∀ act : Act Unit, act.Does → act.Ends → runInstr act s = .next t →
      t.status = s.status ∨
        ∃ f, t.status = .faulted f s.currentIndex ∧ t.reg .i = s.reg .i ∧ (Stop.raised f).InStage5 := by
    intro act hd ha h
    rcases runInstr_ends ha hp h with hr | hf
    · have := hd s
      rw [hr] at this
      exact .inl this.status
    · exact .inr hf
  cases i with
  | imm dst val => exact close _ (writeId_does dst val) (writeId_ends dst val) h
  | add dst src =>
    exact close _ ((resolve_does dst).bind fun _ => (readId_does src).bind fun _ =>
        (readReg_does _).bind fun _ => writeReg_does _ _)
      ((resolve_quiet dst).bind_ends fun _ => (readId_quiet src).bind_ends fun _ =>
        (readReg_quiet _).bind_ends fun _ => writeReg_ends _ _) h
  | stk pop push =>
    exact close _ ((stkPush_does push).bind fun _ => stkPop_does pop)
      ((stkPush_quiet push).bind_ends fun _ => stkPop_ends pop) h
  | stm dst src =>
    exact close _ ((readId_does dst).bind fun _ => (readId_does src).bind fun _ => writeRam_does _ _)
      ((readId_quiet dst).bind_ends fun _ => (readId_quiet src).bind_ends fun _ => (writeRam_quiet _ _).ends) h
  | ldm dst src =>
    exact close _ ((readId_does src).bind fun _ => (readRam_does _).bind fun _ => writeId_does dst _)
      ((readId_quiet src).bind_ends fun _ => (readRam_quiet _).bind_ends fun _ => writeId_ends dst _) h
  | cmp left right =>
    exact close _ ((readId_does left).bind fun _ => (readId_does right).bind fun _ => writeReg_does _ _)
      ((readId_quiet left).bind_ends fun _ => (readId_quiet right).bind_ends fun _ => writeReg_ends _ _) h
  | jmp flags dst =>
    refine close _ ((readReg_does .f).bind fun fl => ?_) ((readReg_quiet .f).bind_ends fun fl => ?_) h
    · by_cases ht : jumpTaken fl flags = true
      · simp only [ht, if_true]; exact (readId_does dst).bind fun _ => writeReg_does _ _
      · simp only [ht]; exact Act.Does.pure _
    · by_cases ht : jumpTaken fl flags = true
      · simp only [ht, if_true]; exact (readId_quiet dst).bind_ends fun _ => writeReg_ends _ _
      · simp only [ht]; exact Act.Ends.pure _
  | sys num dst => exact close _ (sysAct_does num dst) (sysAct_ends num dst) h
  | sysWrite dst => exact close _ (sysWriteAct_does dst) (sysWriteAct_ends dst) h
  | sysRead dst => exact close _ (sysReadAct_does dst) (sysReadAct_ends dst) h
  | sysOpen dst => exact close _ (sysOpenAct_does dst) (sysOpenAct_ends dst) h

end Sys2Proof.Machine
end

