-- ==== Sys2Proof/Laws/Frames.lean ====
section
/-! SUPPORT. The frame predicates of Safety.lean for the ways an instruction ends: nothing changed, one register or one RAM
byte written, a fault taken, a host call answered. -/

namespace Sys2Proof.Machine

theorem StatusKeptOrFaulted.refl (s : State) : StatusKeptOrFaulted s s := .inl rfl

theorem StatusKeptOrFaulted.taken (f : FaultClass) (o : Byte) (s t : State) : StatusKeptOrFaulted s (takeFault f o t) :=
  .inr ⟨f, o, rfl⟩

theorem NoHostCall.refl (s : State) : NoHostCall s s := ⟨rfl, rfl⟩

theorem OneHostCall.answered (req : HostRequest) (s : State) : OneHostCall req s (s.afterHostCall req) := ⟨rfl, rfl⟩

theorem OnlyBytesChange.refl (w : Nat → Prop) (s : State) : OnlyBytesChange w s s :=
  ⟨rfl, rfl, .inl rfl, ⟨rfl, rfl⟩, fun _ _ => rfl⟩

theorem OnlyBytesChange.taken (w : Nat → Prop) (f : FaultClass) (o : Byte) (s : State) :
    OnlyBytesChange w s (takeFault f o s) :=
  ⟨rfl, rfl, .inr ⟨f, o, rfl⟩, ⟨rfl, rfl⟩, fun _ _ => rfl⟩

theorem OnlyBytesChange.setReg {w : Nat → Prop} {s : State} {r : Reg} (h : w (s.regAddress r)) (v : Byte) :
    OnlyBytesChange w s (s.setReg r v) :=
  ⟨rfl, rfl, .inl rfl, ⟨rfl, rfl⟩, fun _ ha => Memory.read_write_other _ _ fun e => ha (e ▸ h)⟩

theorem OnlyBytesChange.setRam {w : Nat → Prop} {s : State} {o : Byte} (h : w (ramAddress o)) (v : Byte) :
    OnlyBytesChange w s (s.setRam o v) :=
  ⟨rfl, rfl, .inl rfl, ⟨rfl, rfl⟩, fun _ ha => Memory.read_write_other _ _ fun e => ha (e ▸ h)⟩

end Sys2Proof.Machine
end

