-- ==== Sys2Proof/Laws/HostPort.lean ====
section
/-! SUPPORT. What the operations of the HOST port and the RAM string scan do, each said once (44_sys.md R220-R234,
20_memory.md R55). -/

namespace Sys2Proof.Machine

/-- The answer of `HostWrite` to a block that sent `len` bytes. -/
def HostAnswer.asCount (len : Nat) : HostAnswer → Option Nat
  | .err => none
  | .ok num _ => some (boundCount len num)

/-- The answer of `HostRead` to a block that asked for `n` bytes. -/
def HostAnswer.asData (n : Nat) : HostAnswer → Option (List Byte)
  | .err => none
  | .ok _ data => some (boundData n data)

/-- The answer of `HostOpen`. -/
def HostAnswer.asDescriptor : HostAnswer → Option Nat
  | .err => none
  | .ok num _ => some num

section
variable {s : State} {a : HostAnswer}

theorem hostWrite_answered {fd : Byte} {bytes : List Byte} (h : s.hostAnswerTo (.writeReq fd.toNat bytes) = some a) :
    hostWrite fd bytes s = .ok (HostAnswer.asCount bytes.length a) (s.afterHostCall (.writeReq fd.toNat bytes)) := by
  rw [hostWrite, Act.bind_ok (hostCall_some h)]
  cases a <;> rfl

theorem hostWrite_stalled {fd : Byte} {bytes : List Byte} (h : s.hostAnswerTo (.writeReq fd.toNat bytes) = none) :
    hostWrite fd bytes s = .error .stalled s :=
  Act.bind_error (hostCall_none h)

theorem hostRead_answered {fd : Byte} {n : Nat} (h : s.hostAnswerTo (.readReq fd.toNat n) = some a) :
    hostRead fd n s = .ok (HostAnswer.asData n a) (s.afterHostCall (.readReq fd.toNat n)) := by
  rw [hostRead, Act.bind_ok (hostCall_some h)]
  cases a <;> rfl

theorem hostRead_stalled {fd : Byte} {n : Nat} (h : s.hostAnswerTo (.readReq fd.toNat n) = none) :
    hostRead fd n s = .error .stalled s :=
  Act.bind_error (hostCall_none h)

theorem hostOpen_answered {path : List Byte} {flags mode : Byte}
    (h : s.hostAnswerTo (.openReq (hostPath s.params.pathBytes path) flags.toNat mode.toNat) = some a) :
    hostOpen path flags mode s = .ok (HostAnswer.asDescriptor a)
      (s.afterHostCall (.openReq (hostPath s.params.pathBytes path) flags.toNat mode.toNat)) := by
  rw [hostOpen, Act.bind_ok (look_eq _ _), Act.bind_ok (hostCall_some h)]
  cases a <;> rfl

theorem hostOpen_stalled {path : List Byte} {flags mode : Byte}
    (h : s.hostAnswerTo (.openReq (hostPath s.params.pathBytes path) flags.toNat mode.toNat) = none) :
    hostOpen path flags mode s = .error .stalled s := by
  rw [hostOpen, Act.bind_ok (look_eq _ _), Act.bind_error (hostCall_none h)]

theorem storeDescriptor_fits {dst : Byte} {desc : Nat} (h : desc ≤ 255) :
    storeDescriptor dst desc = writeId dst (BitVec.ofNat 8 desc) :=
  if_neg (Nat.not_lt.mpr h)

theorem storeDescriptor_tooWide {dst : Byte} {desc : Nat} (h : desc > 255) :
    storeDescriptor dst desc = raise (.generic (.descriptorTooWide desc)) :=
  if_pos h

theorem storeReadCount_set {dst : Byte} {m : Nat} (h : s.params.sysReadSetsDst = true) :
    storeReadCount dst m s = writeId dst (narrowCount m) s :=
  if_pos h

theorem storeReadCount_unset {dst : Byte} {m : Nat} (h : s.params.sysReadSetsDst = false) :
    storeReadCount dst m s = .ok () s := by
  simp [storeReadCount, h]

end

/-! ## The scan of `read_string` -/

theorem byte_succ_toNat {off : Byte} (h : off.toNat < 255) : (off + 1).toNat = off.toNat + 1 := by
  rw [BitVec.toNat_add]
  simp
  omega

/-- The scan stops at the first zero byte within its fuel. -/
theorem readStringFrom_terminated {s : State} (hp : s.params.WF) (start : Byte) {n fuel : Nat} {off : Byte}
    (hn : off.toNat + n ≤ 255) (hf : n < fuel)
    (hne : ∀ k, k < n → s.mem.read (ramAddress off + k) ≠ 0x00) (hz : s.mem.read (ramAddress off + n) = 0x00) :
    readStringFrom start off fuel s = .ok (s.mem.readBytes (ramAddress off) n) s := by
  induction n generalizing off fuel with
  | zero =>
    obtain ⟨f, rfl⟩ : ∃ f, fuel = f + 1 := ⟨fuel - 1, by omega⟩
    rw [readStringFrom, Act.bind_ok (readRam_eq hp off), if_pos (show s.ram off = 0x00 from hz)]
    rfl
  | succ n ih =>
    obtain ⟨f, rfl⟩ : ∃ f, fuel = f + 1 := ⟨fuel - 1, by omega⟩
    have hs := byte_succ_toNat (off := off) (by omega)
    have ha : ramAddress (off + 1) = ramAddress off + 1 := by unfold ramAddress; omega
    rw [readStringFrom, Act.bind_ok (readRam_eq hp off), if_neg (show s.ram off ≠ 0x00 from hne 0 (by omega)),
      Act.bind_ok (ih (off := off + 1) (fuel := f) (by omega) (by omega)
        (fun k hk => by
          rw [ha, Nat.add_right_comm]
          exact hne (k + 1) (by omega))
        (by rw [ha, Nat.add_right_comm]; exact hz)), ha]
    rfl

/-- The scan fails at the end of the window when no byte is zero. -/
theorem readStringFrom_unterminated {s : State} (hp : s.params.WF) (start : Byte) {fuel : Nat} {off : Byte}
    (hf : fuel = 0 ∨ off.toNat + fuel = 256) (hne : ∀ k, k < fuel → s.mem.read (ramAddress off + k) ≠ 0x00) :
    readStringFrom start off fuel s = .error (.raised (.generic (.unterminatedString start))) s := by
  induction fuel generalizing off with
  | zero => rfl
  | succ n ih =>
    rw [readStringFrom, Act.bind_ok (readRam_eq hp off), if_neg (show s.ram off ≠ 0x00 from hne 0 (by omega))]
    rcases Nat.eq_zero_or_pos n with rfl | hn
    · exact Act.bind_error rfl
    · have hs := byte_succ_toNat (off := off) (by omega)
      have ha : ramAddress (off + 1) = ramAddress off + 1 := by unfold ramAddress; omega
      exact Act.bind_error (ih (off := off + 1) (by omega) fun k hk => by
        rw [ha, Nat.add_right_comm]
        exact hne (k + 1) (by omega))

end Sys2Proof.Machine
end

