-- ==== Sys2Proof/Laws/PerInstr.lean ====
section
/-! SUPPORT. Statements for all instructions, one lemma per constructor. Family `RowSelected`: the kind and operand
bytes an instruction is encoded with select the same table row again. -/

namespace Sys2Proof.Laws.RowSelected

/-- Decoding an instruction's own kind and operands gives the instruction back (R85, R221, W6). -/
def Statement (i : Instr) : Prop :=
  ∀ n : SysNums, n.toList.Nodup → i.WF n → instrOf n (i.fields n) = i

theorem imm (dst val : Byte) : Statement (.imm dst val) := fun _ _ _ => rfl
theorem add (dst src : Byte) : Statement (.add dst src) := fun _ _ _ => rfl
theorem stk (pop push : Byte) : Statement (.stk pop push) := fun _ _ _ => rfl
theorem stm (dst src : Byte) : Statement (.stm dst src) := fun _ _ _ => rfl
theorem ldm (dst src : Byte) : Statement (.ldm dst src) := fun _ _ _ => rfl
theorem cmp (left right : Byte) : Statement (.cmp left right) := fun _ _ _ => rfl
theorem jmp (flags dst : Byte) : Statement (.jmp flags dst) := fun _ _ _ => rfl

theorem sys (num dst : Byte) : Statement (.sys num dst) := by
  intro n _ hw
  simp only [Instr.WF, SysNums.toList, List.mem_cons, List.not_mem_nil, or_false, not_or] at hw
  simp [Instr.fields, instrOf, hw.1, hw.2.1, hw.2.2]

theorem sysWrite (dst : Byte) : Statement (.sysWrite dst) := by
  intro n _ _
  simp [Instr.fields, instrOf]

theorem sysRead (dst : Byte) : Statement (.sysRead dst) := by
  intro n hn _
  simp only [SysNums.toList, List.nodup_cons, List.mem_cons, List.not_mem_nil, or_false, not_or] at hn
  simp [Instr.fields, instrOf, hn.2.1]

theorem sysOpen (dst : Byte) : Statement (.sysOpen dst) := by
  intro n hn _
  simp only [SysNums.toList, List.nodup_cons, List.mem_cons, List.not_mem_nil, or_false, not_or] at hn
  simp [Instr.fields, instrOf, hn.1.1, hn.1.2]

end Sys2Proof.Laws.RowSelected
end

