-- ==== Sys2Proof/Laws/Stack.lean ====
section
/-! SUPPORT. What the two halves of STK do, each said once (42_stack_memory.md R160). -/

namespace Sys2Proof.Machine

theorem stkPush_skipped (s : State) : stkPush 0x00 s = .ok () s := rfl

theorem stkPop_skipped (s : State) : stkPop 0x00 s = .ok () s := rfl

theorem stkPush_some {s : State} (hp : s.params.WF) {push : Byte} {r : Reg} (h0 : push ≠ 0x00)
    (h : s.regOf push = some r) :
    stkPush push s = .ok () ((s.setReg .s (s.reg .s + 1)).setRam (s.reg .s + 1)
      ((s.setReg .s (s.reg .s + 1)).reg r)) := by
  have hp' : (s.setReg .s (s.reg .s + 1)).params.WF := hp
  rw [stkPush, if_neg h0, Act.bind_ok (readReg_eq hp .s), Act.bind_ok (writeReg_eq hp .s _),
    Act.bind_ok (readId_some hp' (by simpa using h)), Act.bind_ok (readReg_eq hp' .s), writeRam_eq hp',
    State.reg_setReg_same]

theorem stkPush_none {s : State} (hp : s.params.WF) {push : Byte} (h0 : push ≠ 0x00) (h : s.regOf push = none) :
    stkPush push s = .error (.raised (.unknownRegister push)) (s.setReg .s (s.reg .s + 1)) := by
  rw [stkPush, if_neg h0, Act.bind_ok (readReg_eq hp .s), Act.bind_ok (writeReg_eq hp .s _),
    Act.bind_error (readId_none (by simpa using h))]

theorem stkPop_some {s : State} (hp : s.params.WF) {pop : Byte} {r : Reg} (h0 : pop ≠ 0x00)
    (h : s.regOf pop = some r) :
    stkPop pop s = .ok () ((s.setReg r (s.ram (s.reg .s))).setReg .s
      ((s.setReg r (s.ram (s.reg .s))).reg .s - 1)) := by
  have hp' : (s.setReg r (s.ram (s.reg .s))).params.WF := hp
  rw [stkPop, if_neg h0, Act.bind_ok (readReg_eq hp .s), Act.bind_ok (readRam_eq hp _),
    Act.bind_ok (writeId_some hp h _), Act.bind_ok (readReg_eq hp' .s), writeReg_eq hp']

theorem stkPop_none {s : State} (hp : s.params.WF) {pop : Byte} (h0 : pop ≠ 0x00) (h : s.regOf pop = none) :
    stkPop pop s = .error (.raised (.unknownRegister pop)) s := by
  rw [stkPop, if_neg h0, Act.bind_ok (readReg_eq hp .s), Act.bind_ok (readRam_eq hp _),
    Act.bind_error (writeId_none h _)]

end Sys2Proof.Machine
end

