-- ==== Sys2Proof/Laws/Step.lean ====
section
/-! SUPPORT. The stages of the step, each said once (40_step_cycle.md R111-R116). -/

namespace Sys2Proof.Machine

/-- A ready session's step is its stages. -/
theorem step_of_ready {s : State} (h : s.Ready) : step s = runStages s := by
  simp only [step, if_neg (not_not.mpr h.cfgWF), if_neg (not_not.mpr h.paramsWF.1), h.running]

/-- What a step with a next state went through: it started running, and its stages gave that state. -/
theorem step_next {s t : State} (h : step s = .next t) : s.status = .running ∧ runStages s = .next t := by
  unfold step at h
  split at h
  · simp at h
  split at h
  · simp at h
  split at h
  · simp at h
  · exact ⟨‹_›, h⟩

theorem nextIndex_ok {s : State} (h : s.params.WF) (hi : s.reg .i ≠ 0xFF) :
    nextIndex s = .ok (s.reg .i) (s.setReg .i (s.reg .i + 1)) := by
  rw [nextIndex, Act.bind_ok (readReg_eq h .i), if_neg hi, Act.bind_ok (writeReg_eq h .i _), Act.pure_eq]

theorem nextIndex_overflow {s : State} (h : s.params.WF) (hi : s.reg .i = 0xFF) :
    nextIndex s = .error (.raised (.generic .ipOverflow)) s := by
  rw [nextIndex, Act.bind_ok (readReg_eq h .i), if_pos hi]
  rfl

/-- The code region does not hold the bank: the increment of i does not change the bytes fetched. -/
theorem instrBytesAt_setReg (s : State) (r : Reg) (v n : Byte) :
    instrBytesAt (s.setReg r v).mem (indexAddress n) = instrBytesAt s.mem (indexAddress n) := by
  have h1 := s.regAddress_bounds r
  have h2 := n.isLt
  simp only [instrBytesAt, indexAddress, State.setReg_mem]
  rw [Memory.read_write_other _ _ (by omega), Memory.read_write_other _ _ (by omega),
    Memory.read_write_other _ _ (by omega)]

theorem fetchBytes_eq {s : State} (h : s.params.WF) (n : Byte) :
    fetchBytes n s = .ok (instrBytesAt s.mem (indexAddress n)) s := by
  have h1 := n.isLt
  have h2 := h.2
  rw [fetchBytes, Act.bind_ok (checkRange_eq (by unfold indexAddress; omega)), look_eq]

theorem decodeFetched_ok {s : State} {w : InstrBytes} {i : Instr} (h : decode s.cfg w = .ok i) :
    decodeFetched w s = .ok i s := by
  simp [decodeFetched, h]

theorem decodeFetched_error {s : State} {w : InstrBytes} {e : DecodeError} (h : decode s.cfg w = .error e) :
    decodeFetched w s = .error (.raised (.unrecognizedOpcode (w.get s.cfg.fo.op))) s := by
  simp [decodeFetched, h, raise]

/-- Stages 1 to 4 when i is not 255: i is incremented, and the bytes at its old value are decoded. -/
theorem fetchDecode_eq {s : State} (h : s.params.WF) (hi : s.reg .i ≠ 0xFF) :
    fetchDecode s =
      match decode s.cfg s.nextBytes with
      | .ok i => .ok i (s.setReg .i (s.reg .i + 1))
      | .error _ =>
        .error (.raised (.unrecognizedOpcode (s.nextBytes.get s.cfg.fo.op))) (s.setReg .i (s.reg .i + 1)) := by
  let t := s.setReg .i (s.reg .i + 1)
  have hf : fetchBytes (s.reg .i) t = .ok s.nextBytes t := by
    rw [fetchBytes_eq (s := t) h, instrBytesAt_setReg]
    rfl
  rw [fetchDecode, Act.bind_ok (nextIndex_ok h hi), Act.bind_ok hf]
  rcases hd : decode s.cfg s.nextBytes with e | i
  · exact decodeFetched_error (s := t) hd
  · exact decodeFetched_ok (s := t) hd

theorem fetchDecode_overflow {s : State} (h : s.params.WF) (hi : s.reg .i = 0xFF) :
    fetchDecode s = .error (.raised (.generic .ipOverflow)) s := by
  rw [fetchDecode, Act.bind_error (nextIndex_overflow h hi)]

end Sys2Proof.Machine
end

