-- ==== Sys2Proof/Tests/Slice0.lean ====
section
/-! SUPPORT. Tests of the model's author: the well-formedness smoke test, decoding of words written out from the spec,
single steps from the spec's test vectors (95_test_vectors.md), and a witness for the hypotheses of each obligation. -/

namespace Sys2Proof.Tests

open Sys2Proof Sys2Proof.Machine

/-- The reference session with the buffer bytes and the host script given. Under the reference bank, register a is at
0x400, b 0x401, c 0x402, d 0x403, s 0x404, i 0x405, f 0x406. -/
def session (mem : Memory) (script : List HostReply) : State :=
  { State.reset with mem := mem, hostScript := script }

/-- What is seen of the next state, if there is one. -/
def after {α : Type} (o : Host.Outcome State Fault Refusal) (see : State → α) : Option α :=
  match o with
  | .next t => some (see t)
  | .fault _ => none
  | .refused _ => none

/-- The stop, if the outcome is a fault of the model. -/
def stopOf (o : Host.Outcome State Fault Refusal) : Option Fault :=
  match o with
  | .next _ => none
  | .fault f => some f
  | .refused _ => none

/-- The refusal, if the outcome is one. -/
def refusalOf (o : Host.Outcome State Fault Refusal) : Option Refusal :=
  match o with
  | .next _ => none
  | .fault _ => none
  | .refused r => some r

/-! ## Well-formedness (R21, R22, R6): each check refuses an ill-formed term -/

theorem test_tcfg_wellFormed : Config.tcfg.WF ∧ Config.tcfgP.WF ∧ Params.reference.WF := by decide

theorem test_w1_refuses_repeated_opcode :
    ¬ ({ Config.tcfg with op := { Config.tcfg.op with sys := 0x10 } } : Config).OpcodesDistinct := by decide

theorem test_w2_refuses_repeated_identifier :
    ¬ ({ Config.tcfg with id := { Config.tcfg.id with f := 0x01 } } : Config).IdsDistinct := by decide

theorem test_w3_refuses_zero_identifier :
    ¬ ({ Config.tcfg with id := { Config.tcfg.id with s := 0x00 } } : Config).IdsNonzero := by decide

theorem test_w4_refuses_nonzero_none :
    ¬ ({ Config.tcfg with id := { Config.tcfg.id with none := 0x08 } } : Config).NoneIsZero := by decide

theorem test_w5_refuses_repeated_position :
    ¬ ({ op := 0, left := 2, right := 2 } : FieldOrder).IsPermutation := by decide

theorem test_w6_refuses_repeated_syscall :
    ¬ ({ Config.tcfg with sys := { openNum := 0x01, readNum := 0x03, writeNum := 0x03 } } : Config).SysNumsDistinct := by
  decide

theorem test_bank_refuses_shared_slot :
    ¬ ({ Params.reference.regAddr with f := 0 } : RegAddr).IsBijection := by decide

theorem test_buffer_bounds :
    ¬ ({ Params.reference with memSize := 0x10001 } : Params).Launchable ∧
      ¬ ({ Params.reference with memSize := 0x406 } : Params).WF ∧
      ({ Params.reference with memSize := 0x10000 } : Params).WF := by decide

theorem test_sys_row_excludes_known_numbers :
    ¬ Instr.WF Config.tcfg.sys (.sys 0x01 0x04) ∧ ¬ Instr.WF Config.tcfg.sys (.sys 0x02 0x04) ∧
      ¬ Instr.WF Config.tcfg.sys (.sys 0x03 0x04) ∧ Instr.WF Config.tcfg.sys (.sys 0x00 0x04) := by decide

/-! ## Decoding: words from the format of R81 and the vectors DC1 to DC10 -/

/-- DC9, and DC7, DC8 for operands no instruction can use: one word per constructor. -/
theorem test_decode_every_constructor :
    decode Config.tcfg { w0 := 0x10, w1 := 0x01, w2 := 0x05 } = .ok (.imm 0x01 0x05) ∧
    decode Config.tcfg { w0 := 0x11, w1 := 0xFF, w2 := 0xFE } = .ok (.add 0xFF 0xFE) ∧
    decode Config.tcfg { w0 := 0x12, w1 := 0x04, w2 := 0x00 } = .ok (.stk 0x04 0x00) ∧
    decode Config.tcfg { w0 := 0x13, w1 := 0x02, w2 := 0x01 } = .ok (.stm 0x02 0x01) ∧
    decode Config.tcfg { w0 := 0x14, w1 := 0x03, w2 := 0x02 } = .ok (.ldm 0x03 0x02) ∧
    decode Config.tcfg { w0 := 0x15, w1 := 0x01, w2 := 0x02 } = .ok (.cmp 0x01 0x02) ∧
    decode Config.tcfg { w0 := 0x16, w1 := 0x80, w2 := 0x04 } = .ok (.jmp 0x80 0x04) ∧
    decode Config.tcfg { w0 := 0x17, w1 := 0x00, w2 := 0x00 } = .ok (.sys 0x00 0x00) ∧
    decode Config.tcfg { w0 := 0x17, w1 := 0x03, w2 := 0x04 } = .ok (.sysWrite 0x04) ∧
    decode Config.tcfg { w0 := 0x17, w1 := 0x02, w2 := 0x04 } = .ok (.sysRead 0x04) ∧
    decode Config.tcfg { w0 := 0x17, w1 := 0x01, w2 := 0x04 } = .ok (.sysOpen 0x04) :=
  ⟨rfl, rfl, rfl, rfl, rfl, rfl, rfl, rfl, rfl, rfl, rfl⟩

/-- DC5 and DC6: bytes outside the opcode map. -/
theorem test_decode_rejects_by_name :
    decode Config.tcfg { w0 := 0x00, w1 := 0x00, w2 := 0x00 } = .error (.unrecognizedOpcode 0x00) ∧
    decode Config.tcfg { w0 := 0x18, w1 := 0x01, w2 := 0x02 } = .error (.unrecognizedOpcode 0x18) ∧
    decodeBytes Config.tcfg [0x10, 0x01] = .error (.truncated 2) := ⟨rfl, rfl, rfl⟩

/-- The table of R81: IMM a 5 under its six field orders. -/
theorem test_six_field_orders :
    placeFields { op := 0, left := 1, right := 2 } 0x10 0x01 0x05 = { w0 := 0x10, w1 := 0x01, w2 := 0x05 } ∧
    placeFields { op := 0, left := 2, right := 1 } 0x10 0x01 0x05 = { w0 := 0x10, w1 := 0x05, w2 := 0x01 } ∧
    placeFields { op := 1, left := 0, right := 2 } 0x10 0x01 0x05 = { w0 := 0x01, w1 := 0x10, w2 := 0x05 } ∧
    placeFields { op := 1, left := 2, right := 0 } 0x10 0x01 0x05 = { w0 := 0x05, w1 := 0x10, w2 := 0x01 } ∧
    placeFields { op := 2, left := 0, right := 1 } 0x10 0x01 0x05 = { w0 := 0x01, w1 := 0x05, w2 := 0x10 } ∧
    placeFields { op := 2, left := 1, right := 0 } 0x10 0x01 0x05 = { w0 := 0x05, w1 := 0x01, w2 := 0x10 } := by decide

/-- The encoder, for a row of its own and for the row SYS, under TCFG-P. -/
theorem test_encode_words :
    encode Config.tcfg (.sysWrite 0x04) = { w0 := 0x17, w1 := 0x03, w2 := 0x04 } ∧
    encode Config.tcfgP (.sys 0x09 0x04) = { w0 := 0x09, w1 := 0x04, w2 := 0x17 } := by decide

/-- The opcode table's numbering of bits: byte 0 is bits 7 to 0. -/
theorem test_table_word :
    decodeTableWord 24 0x050110 = some (.imm 0x01 0x05) ∧ decodeTableWord 8 0x17 = some (.sys 0x00 0x00) ∧
      decodeTableWord 24 0 = none := by decide

/-! ## Single steps from the vectors -/

/-- ST2: the last index that runs. -/
theorem test_step_index_254 :
    after (step (session [(762, 0x10), (763, 0x01), (764, 0x07), (0x405, 0xFE)] []))
      (fun t => (t.reg .a, t.reg .i, t.status)) = some (0x07, 0xFF, .running) := by decide

/-- ST1, FP1: index 255 faults before any fetch. -/
theorem test_step_index_255 :
    after (step (session [(0x405, 0xFF)] [])) (fun t => (t.reg .i, t.status)) =
      some (0xFF, .faulted (.generic .ipOverflow) 0xFF) := by decide

/-- ST3, FP2: an unknown opcode with operands that name no register. -/
theorem test_step_unknown_opcode :
    after (step (session [(31, 0x09), (32, 0x0A), (0x405, 0x0A)] [])) (fun t => (t.reg .i, t.status)) =
      some (0x0B, .faulted (.unrecognizedOpcode 0x00) 0x0A) := by decide

/-- ST5: no step from the status faulted. -/
theorem test_step_faulted :
    stopOf (step { State.reset with status := .faulted (.unknownRegister 0x09) 0x02 }) =
      some (.sessionFaulted (.unknownRegister 0x09) 0x02) := by decide

/-- R23 and D1: sessions outside the spec's parameters have no step. -/
theorem test_step_refuses :
    refusalOf (step { State.reset with cfg := { Config.tcfg with id := { Config.tcfg.id with none := 0x08 } } }) =
      some .illFormedConfig ∧
    refusalOf (step { State.reset with params := { Params.reference with memSize := 0x10001 } }) =
      some .illFormedParams := by decide

/-- R54: with a buffer that ends below i, reading i faults, and the info is its address. -/
theorem test_step_small_buffer :
    after (step { State.reset with params := { Params.reference with memSize := 0x405 } }) (fun t => t.status) =
      some (.faulted (.addressOutOfRange 0x405) 0x00) := by decide

/-- IM3: IMM i 9 at index 2. -/
theorem test_imm_jumps :
    after (step (session [(6, 0x10), (7, 0x06), (8, 0x09), (0x405, 0x02)] [])) (fun t => (t.reg .i, t.status)) =
      some (0x09, .running) := by decide

/-- IM5: IMM NONE 5 at index 2. -/
theorem test_imm_none :
    after (step (session [(6, 0x10), (8, 0x05), (0x405, 0x02)] [])) (fun t => (t.reg .i, t.status)) =
      some (0x03, .faulted (.unknownRegister 0x00) 0x02) := by decide

/-- AD6: ADD i b wraps past 255 without a fault. -/
theorem test_add_wraps_into_i :
    after (step (session [(15, 0x11), (16, 0x06), (17, 0x02), (0x401, 0xFA), (0x405, 0x05)] []))
      (fun t => (t.reg .i, t.reg .b, t.reg .f, t.status)) = some (0x00, 0xFA, 0x00, .running) := by decide

/-- AD10: two bad operands, LEFT first. -/
theorem test_add_left_first :
    after (step (session [(0, 0x11), (1, 0x09), (2, 0x0A), (0x400, 0x01)] [])) (fun t => (t.reg .a, t.status)) =
      some (0x01, .faulted (.unknownRegister 0x09) 0x00) := by decide

/-- SK12: STK s a pops the pushed value into s and then decrements s. -/
theorem test_stk_pop_into_s :
    after (step (session [(0, 0x12), (1, 0x05), (2, 0x01), (0x400, 0x40), (0x404, 0x05)] []))
      (fun t => (t.ram 0x06, t.reg .s, t.reg .a, t.status)) = some (0x40, 0x3F, 0x40, .running) := by decide

/-- SK14: the push stays done when the pop faults. -/
theorem test_stk_pop_faults_after_push :
    after (step (session [(0, 0x12), (1, 0x09), (2, 0x01), (0x400, 0x07), (0x404, 0x05)] []))
      (fun t => (t.ram 0x06, t.reg .s, t.status)) = some (0x07, 0x06, .faulted (.unknownRegister 0x09) 0x00) := by decide

/-- MM3: the last byte of the window. -/
theorem test_stm_last_byte :
    after (step (session [(0, 0x13), (1, 0x02), (2, 0x01), (0x400, 0x11), (0x401, 0xFF)] []))
      (fun t => (t.mem.read 0x3FF, t.mem.read 0x400)) = some (0x11, 0x11) := by decide

/-- MM11: LEFT first. -/
theorem test_stm_left_first :
    after (step (session [(0, 0x13), (1, 0x09), (2, 0x0A)] [])) (fun t => t.status) =
      some (.faulted (.unknownRegister 0x09) 0x00) := by decide

/-- MM6: LDM b b replaces the offset by the byte. -/
theorem test_ldm_same_register :
    after (step (session [(0, 0x14), (1, 0x02), (2, 0x02), (0x310, 0x42), (0x401, 0x10)] [])) (fun t => t.reg .b) =
      some 0x42 := by decide

/-- MM9: RIGHT first. -/
theorem test_ldm_right_first :
    after (step (session [(0, 0x14), (1, 0x09), (2, 0x0A)] [])) (fun t => t.status) =
      some (.faulted (.unknownRegister 0x0A) 0x00) := by decide

/-- CP10: operand f gives its old value. -/
theorem test_cmp_reads_old_flags :
    after (step (session [(0, 0x15), (1, 0x07), (2, 0x01), (0x400, 0x09), (0x406, 0x09)] [])) (fun t => t.reg .f) =
      some 0x04 := by decide

/-- CP5: the comparison is unsigned. -/
theorem test_cmp_unsigned :
    after (step (session [(0, 0x15), (1, 0x01), (2, 0x02), (0x400, 0x80), (0x401, 0x7F)] [])) (fun t => t.reg .f) =
      some 0x0A := by decide

/-- JP5: taken on a shared bit. -/
theorem test_jmp_taken :
    after (step (session [(0, 0x16), (1, 0x05), (2, 0x04), (0x403, 0x07), (0x406, 0x04)] [])) (fun t => t.reg .i) =
      some 0x07 := by decide

/-- JP8: not taken, a bad dst is not resolved. -/
theorem test_jmp_not_taken_bad_dst :
    after (step (session [(9, 0x16), (10, 0x01), (11, 0x09), (0x405, 0x03), (0x406, 0x04)] []))
      (fun t => (t.reg .i, t.status)) = some (0x04, .running) := by decide

/-- FP3, SY22: the syscall number is checked before dst. -/
theorem test_sys_unknown_number :
    after (step (session [(0, 0x17), (1, 0x09)] [])) (fun t => (t.hostLog, t.status)) =
      some ([], .faulted (.unrecognizedSyscall 0x09) 0x00) := by decide

/-- SY4: the slice is clamped to one byte. -/
theorem test_sysWrite_clamps :
    after (step (session [(0, 0x17), (1, 0x03), (2, 0x04), (0x3FF, 0x55), (0x400, 0x01), (0x401, 0xFF), (0x402, 0x0A)]
      [.answer (.ok 1 [])])) (fun t => (t.hostLog, t.reg .d, t.status)) =
      some ([.writeReq 1 [0x55]], 0x01, .running) := by decide

/-- SY7: dst none faults after the host write. -/
theorem test_sysWrite_none_dst :
    after (step (session [(0, 0x17), (1, 0x03), (0x320, 0x48), (0x321, 0x69), (0x400, 0x01), (0x401, 0x20), (0x402, 0x02)]
      [.answer (.ok 2 [])])) (fun t => (t.hostLog, t.status)) =
      some ([.writeReq 1 [0x48, 0x69]], .faulted (.unknownRegister 0x00) 0x00) := by decide

/-- SY11: two bytes at the end of the window; the host offered more than asked for. -/
theorem test_sysRead_clamps :
    after (step (session [(0, 0x17), (1, 0x02), (2, 0x04), (0x401, 0xFE), (0x402, 0x10)]
      [.answer (.ok 0 [0x01, 0x02, 0x03])])) (fun t => (t.hostLog, t.ram 0xFE, t.ram 0xFF, t.reg .a, t.reg .d)) =
      some ([.readReq 0 2], 0x01, 0x02, 0x00, 0x02) := by decide

/-- SY14: the byte stays when dst faults. -/
theorem test_sysRead_bad_dst :
    after (step (session [(0, 0x17), (1, 0x02), (2, 0x09), (0x401, 0x40), (0x402, 0x04)]
      [.answer (.ok 0 [0x61])])) (fun t => (t.ram 0x40, t.ram 0x41, t.status)) =
      some (0x61, 0x00, .faulted (.unknownRegister 0x09) 0x00) := by decide

/-- SY17: a descriptor of 256 faults and dst keeps its value. -/
theorem test_sysOpen_wide_descriptor :
    after (step (session [(0, 0x17), (1, 0x01), (2, 0x04), (0x350, 0x66), (0x400, 0x50), (0x403, 0x09)]
      [.answer (.ok 256 [])])) (fun t => (t.hostLog, t.reg .d, t.status)) =
      some ([.openReq [0x66] 0 0], 0x09, .faulted (.generic (.descriptorTooWide 256)) 0x00) := by decide

/-- SY20, FP4: an unterminated path faults before the host call and before dst. -/
theorem test_sysOpen_unterminated :
    after (step (session [(0, 0x17), (1, 0x01), (0x3FC, 0x41), (0x3FD, 0x41), (0x3FE, 0x41), (0x3FF, 0x41), (0x400, 0xFC)]
      [])) (fun t => (t.hostLog, t.status)) =
      some ([], .faulted (.generic (.unterminatedString 0xFC)) 0x00) := by decide

/-- The numbering of R260. -/
theorem test_fault_codes :
    (FaultClass.unknownRegister 0x09).code = 1 ∧ (FaultClass.unrecognizedOpcode 0x18).code = 2 ∧
    (FaultClass.addressOutOfRange 0x407).code = 3 ∧ (FaultClass.unrecognizedSyscall 0x09).code = 4 ∧
    (FaultClass.generic .ipOverflow).code = 5 ∧ (FaultClass.generic .ipOverflow).subReason = some 1 ∧
    (FaultClass.generic (.unterminatedString 0xFC)).subReason = some 2 ∧
    (FaultClass.generic (.descriptorTooWide 256)).subReason = some 3 ∧
    (FaultClass.generic .ipOverflow).info = 255 ∧ (FaultClass.generic (.descriptorTooWide 256)).info = 256 := by decide

/-! ## Witnesses: concrete states and operands that meet an obligation's hypotheses, at the edges of its clauses -/

theorem witness_DecoderSelectsKindByOpcode :
    Config.tcfg.op.toList.Nodup ∧
    (InstrBytes.get { w0 := 0x17, w1 := 0x00, w2 := 0xFF } 0 = Config.tcfg.op.ofKind .sys) ∧
    (∀ k, InstrBytes.get { w0 := 0x18, w1 := 0x10, w2 := 0x10 } 0 ≠ Config.tcfg.op.ofKind k) :=
  ⟨by decide, rfl, fun k => by cases k <;> decide⟩

/-- EX6: the permutation that takes field order (0, 1, 2) to (2, 0, 1). -/
theorem witness_DecodeUnchangedByConsistentPermutation :
    ∃ p : Equiv.Perm (Fin 3), p 0 = 2 ∧ p 1 = 0 ∧ p 2 = 1 ∧
      ∀ k, InstrBytes.get { w0 := 0x01, w1 := 0x05, w2 := 0x10 } (p k) =
        InstrBytes.get { w0 := 0x10, w1 := 0x01, w2 := 0x05 } k :=
  ⟨⟨fun k => k + 2, fun k => k + 1, by decide, by decide⟩, rfl, rfl, rfl, by decide⟩

theorem witness_DecodeInvertsEncode :
    Config.tcfgP.WF ∧ Instr.WF Config.tcfgP.sys (.sys 0x00 0xFF) ∧ Instr.WF Config.tcfgP.sys (.sys 0x04 0x00) ∧
      Instr.WF Config.tcfgP.sys (.stk 0xFF 0x00) ∧ Instr.WF Config.tcfgP.sys (.sysOpen 0x04) := by decide

theorem witness_EncodeInvertsDecode :
    Config.tcfgP.WF ∧ decode Config.tcfgP { w0 := 0x03, w1 := 0xFF, w2 := 0x17 } = .ok (.sysWrite 0xFF) :=
  ⟨by decide, rfl⟩

theorem witness_IllegalOpcodesFault :
    Config.tcfg.op.toList.Nodup ∧ State.reset.Ready ∧ State.reset.reg .i ≠ 0xFF ∧
      ∀ k, State.reset.nextBytes.get State.reset.cfg.fo.op ≠ State.reset.cfg.op.ofKind k :=
  ⟨by decide, ⟨by decide, by decide, rfl⟩, by decide, fun k => by cases k <;> decide⟩

/-- The highest index that runs, 254, holding IMM a 7 (ST2). -/
def lastIndex : State := session [(762, 0x10), (763, 0x01), (764, 0x07), (0x405, 0xFE)] []

theorem lastIndex_ready : lastIndex.Ready := ⟨by decide, by decide, rfl⟩

theorem witness_StepRunsDecodedInstruction :
    lastIndex.Ready ∧ lastIndex.reg .i ≠ 0xFF ∧ decode lastIndex.cfg lastIndex.nextBytes = .ok (.imm 0x01 0x07) :=
  ⟨lastIndex_ready, by decide, rfl⟩

/-- A session whose i is 255 (ST1). -/
def pastLastIndex : State := session [(0x405, 0xFF)] []

theorem pastLastIndex_ready : pastLastIndex.Ready := ⟨by decide, by decide, rfl⟩

theorem witness_IndexOverflowEndsSession : pastLastIndex.Ready ∧ pastLastIndex.reg .i = 0xFF :=
  ⟨pastLastIndex_ready, rfl⟩

theorem witness_FaultedSessionTakesNoStep :
    let s : State := { State.reset with status := .faulted (.unknownRegister 0x09) 0x02 }
    s.status = .faulted (.unknownRegister 0x09) 0x02 ∧ s.cfg.WF ∧ s.params.Launchable :=
  ⟨rfl, by decide, by decide⟩

theorem witness_RefusedSessions :
    (let cfg : Config := { Config.tcfg with sys := { openNum := 0x01, readNum := 0x02, writeNum := 0x02 } }
     ¬ (cfg.op.toList.Nodup ∧ cfg.id.toList.Nodup ∧ (∀ v ∈ cfg.id.toList, v ≠ 0) ∧ cfg.id.none = 0 ∧
      cfg.fo.toList.Nodup ∧ cfg.sys.toList.Nodup)) ∧
    Params.reference.memSize < (List.replicate 0x408 (0x00 : Byte)).length :=
  ⟨by decide, by rw [List.length_replicate]; decide⟩

theorem witness_AddressOutOfRangeUnreachable : lastIndex.Ready ∧ ∃ t, step lastIndex = .next t :=
  ⟨lastIndex_ready, _, rfl⟩

theorem witness_StepEndsRunningOrRecordsItsIndex :
    lastIndex.Ready ∧ (∃ t, step lastIndex = .next t) ∧ pastLastIndex.Ready ∧ ∃ t, step pastLastIndex = .next t :=
  ⟨lastIndex_ready, ⟨_, rfl⟩, pastLastIndex_ready, _, rfl⟩

/-- Both clauses: a fault in stage 2, and one in a later stage. -/
theorem witness_FaultLeavesNextIndex :
    (pastLastIndex.Ready ∧ ∃ t, step pastLastIndex = .next t ∧ t.status = .faulted (.generic .ipOverflow) 0xFF) ∧
    (State.reset.Ready ∧ ∃ t, step State.reset = .next t ∧ t.status = .faulted (.unrecognizedOpcode 0x00) 0x00) :=
  ⟨⟨pastLastIndex_ready, _, rfl, rfl⟩, ⟨by decide, by decide, rfl⟩, _, rfl, rfl⟩

/-- JP3 and ST2: a jump that is not taken, and an instruction whose destination is not i. -/
theorem witness_StraightLineAdvancesByOne :
    (lastIndex.Ready ∧ decode lastIndex.cfg lastIndex.nextBytes = .ok (.imm 0x01 0x07) ∧
      (∃ t, step lastIndex = .next t ∧ t.status = .running) ∧
      ∀ v, Instr.destination (.imm 0x01 0x07) = some v → lastIndex.regOf v ≠ some .i) ∧
    (let s := session [(9, 0x16), (10, 0x01), (11, 0x04), (0x405, 0x03), (0x406, 0x04)] []
     s.Ready ∧ decode s.cfg s.nextBytes = .ok (.jmp 0x01 0x04) ∧ (∃ t, step s = .next t ∧ t.status = .running) ∧
      Instr.destination (.jmp 0x01 0x04) = none ∧ (0x01 : Byte) ≠ 0 ∧ s.reg .f &&& 0x01 = 0) :=
  ⟨⟨lastIndex_ready, rfl, ⟨_, rfl, rfl⟩, fun v h => by cases h; decide⟩,
    ⟨by decide, by decide, rfl⟩, rfl, ⟨_, rfl, rfl⟩, rfl, by decide, by decide⟩

theorem witness_PlacedWordRunsNext :
    decodeTableWord 24 0x03FF17 = some (.sys 0xFF 0x03) ∧ decodeTableWord 24 0x040317 = some (.sysWrite 0x04) ∧
      decodeTableWord 8 0x12 = some (.stk 0x00 0x00) := by decide

theorem witness_StepKeepsInvariant : State.reset.Inv ∧ ∃ t, step State.reset = .next t :=
  ⟨⟨by decide, by decide, by decide, by decide⟩, _, rfl⟩

theorem lastIndex_reaches : ∃ t, lastIndex.Reaches t ∧ t.reg .a = 0x07 :=
  ⟨_, .step .refl rfl, rfl⟩

/-- A state reached by a step that wrote a register, and the two ends of the code region. -/
theorem witness_CodeRegionIsConstant :
    (∃ t, lastIndex.Reaches t ∧ t.reg .a = 0x07) ∧ 0 < 0x300 ∧ 0x2FF < 0x300 :=
  ⟨lastIndex_reaches, by decide, by decide⟩

theorem witness_ConfigurationIsFixed : ∃ t, lastIndex.Reaches t ∧ t.reg .a = 0x07 := lastIndex_reaches

/-- A session with values in registers and RAM: a = 1, b = 0x20, c = 2, d = 9, s = 5, i = 3, f = 0x04. -/
def busy (script : List HostReply) : State :=
  session [(0x305, 0x30), (0x320, 0x48), (0x321, 0x69), (0x400, 0x01), (0x401, 0x20), (0x402, 0x02), (0x403, 0x09),
    (0x404, 0x05), (0x405, 0x03), (0x406, 0x04)] script

theorem witness_OnlyCmpWritesFlagsAsSideEffect :
    (busy []).params.WF ∧ (∃ t, exec (.add 0x01 0x07) (busy []) = .next t) ∧
      (∀ v, Instr.destination (.add 0x01 0x07) = some v → (busy []).regOf v ≠ some .f) :=
  ⟨by decide, ⟨_, rfl⟩, fun v h => by cases h; decide⟩

/-- An image of exactly the buffer's size, one that ends inside the bank, and an empty one. -/
theorem witness_StartLoadsImageThenFill :
    Config.tcfg.WF ∧ Params.reference.Launchable ∧ Params.reference.WF ∧
      (List.replicate 0x407 (0x10 : Byte)).length ≤ Params.reference.memSize ∧
      (List.replicate 0x402 (0x10 : Byte)).length ≤ Params.reference.memSize ∧
      ([] : List Byte).length ≤ Params.reference.memSize :=
  ⟨by decide, by decide, by decide, by rw [List.length_replicate]; decide, by rw [List.length_replicate]; decide,
    by decide⟩

theorem witness_ByteHoldsLastWrite :
    (busy []).mem.wf ∧ Memory.wf [] ∧ (0x401 : Nat) ≠ 0x400 := by decide

/-- EX7 at the edges of the buffer of 0x407 bytes, and a buffer of 0x406 bytes, which lacks the register f. -/
theorem witness_OutOfRangeAccessWritesNothing :
    State.reset.params.memSize < 0x407 + 1 ∧ 0x406 + 1 ≤ State.reset.params.memSize ∧
    State.reset.params.memSize < 0x406 + ([0x01, 0x02] : List Byte).length ∧
    0x405 + ([0x01, 0x02] : List Byte).length ≤ State.reset.params.memSize ∧
    (let s : State := { State.reset with params := { Params.reference with memSize := 0x406 } }
     s.params.memSize ≤ s.regAddress .f) := by decide

theorem witness_RegistersAreSeparateBankBytes :
    (busy []).params.WF ∧ Reg.f ≠ Reg.a ∧
      ({ Params.reference with regAddr := { a := 6, b := 5, c := 4, d := 3, s := 2, i := 1, f := 0 } } : Params).WF := by
  decide

/-- A general register and i as destinations. -/
theorem witness_ImmLoadsLiteral :
    (busy []).params.WF ∧ (busy []).regOf 0x01 = some .a ∧ (busy []).regOf 0x06 = some .i := by decide

theorem witness_AddSumsModulo256 :
    (busy []).params.WF ∧ (busy []).regOf 0x06 = some .i ∧ (busy []).regOf 0x02 = some .b := by decide

theorem witness_StkPushesThenPops :
    (busy []).params.WF ∧ (0x05 : Byte) ≠ 0 ∧ (busy []).regOf 0x05 = some .s ∧ (0x01 : Byte) ≠ 0 ∧
      (busy []).regOf 0x01 = some .a := by decide

/-- Both clauses: s at 0xFF and at 0x00. -/
theorem witness_StackPointerWraps :
    (let s := session [(0x404, 0xFF)] []
     s.params.WF ∧ (0x01 : Byte) ≠ 0 ∧ s.regOf 0x01 = some .a ∧ Reg.a ≠ Reg.s ∧ s.reg .s = 0xFF) ∧
    (let s := session [(0x300, 0x09)] []
     s.params.WF ∧ (0x02 : Byte) ≠ 0 ∧ s.regOf 0x02 = some .b ∧ Reg.b ≠ Reg.s ∧ s.reg .s = 0x00) := by decide

theorem witness_StackPointerAndIndexAsOperands :
    (busy []).params.WF ∧ (0x05 : Byte) ≠ 0 ∧ (busy []).regOf 0x05 = some .s ∧ (0x06 : Byte) ≠ 0 ∧
      (busy []).regOf 0x06 = some .i := by decide

/-- Two registers, and s twice. -/
theorem witness_StkBothHalvesCopyARegister :
    (busy []).params.WF ∧ (0x01 : Byte) ≠ 0 ∧ (0x02 : Byte) ≠ 0 ∧ (busy []).regOf 0x01 = some .a ∧
      (busy []).regOf 0x02 = some .b ∧ Reg.a ≠ Reg.s ∧ Reg.b ≠ Reg.s ∧ (0x05 : Byte) ≠ 0 ∧
      (busy []).regOf 0x05 = some .s := by decide

/-- EX5, and the state right after the push as the state in which the pop runs. -/
theorem witness_StackRoundTrip :
    (busy []).params.WF ∧ (0x03 : Byte) ≠ 0 ∧ (0x04 : Byte) ≠ 0 ∧ (busy []).regOf 0x03 = some .c ∧
      (busy []).regOf 0x04 = some .d ∧ Reg.c ≠ Reg.s ∧ Reg.d ≠ Reg.s ∧
      ∃ t, exec (.stk 0x00 0x03) (busy []) = .next t ∧ t.cfg = t.cfg ∧ t.params = t.params ∧ t.reg .s = 0x06 ∧
        t.ram (t.reg .s) = 0x02 :=
  ⟨by decide, by decide, by decide, rfl, rfl, by decide, by decide, _, rfl, rfl, rfl, rfl, rfl⟩

/-- SK13, SK14, and a pop alone. -/
theorem witness_StkFaultKeepsWhatWasDone :
    (busy []).params.WF ∧ (0x09 : Byte) ≠ 0 ∧ (busy []).regOf 0x09 = none ∧ (0x01 : Byte) ≠ 0 ∧
      (busy []).regOf 0x01 = some .a := by decide

/-- Offsets 0x00 and 0xFF (MM2, MM3). -/
theorem witness_StmStoresThroughRegister :
    (let s := session [(0x400, 0x11)] []
     s.params.WF ∧ s.regOf 0x02 = some .b ∧ s.regOf 0x01 = some .a ∧ s.reg .b = 0x00) ∧
    (let s := session [(0x400, 0x11), (0x401, 0xFF)] []
     s.params.WF ∧ s.regOf 0x02 = some .b ∧ s.regOf 0x01 = some .a ∧ s.reg .b = 0xFF) := by decide

/-- MM8, and a register loaded through itself (MM6). -/
theorem witness_LdmLoadsThroughRegister :
    let s := session [(0x3FF, 0xAB), (0x401, 0xFF)] []
    s.params.WF ∧ s.regOf 0x03 = some .c ∧ s.regOf 0x02 = some .b ∧ s.reg .b = 0xFF := by decide

theorem witness_CmpWritesOrOfHoldingMasks :
    (busy []).params.WF ∧ (busy []).regOf 0x07 = some .f ∧ (busy []).regOf 0x01 = some .a := by decide

/-- One pair of values for each clause. -/
theorem witness_CmpFlagByteIsOneOfFour :
    ((0x00 : Byte) = 0) ∧ ((0xFF : Byte) = 0xFF ∧ (0xFF : Byte) ≠ 0) ∧ ((0x7F : Byte).toNat < (0x80 : Byte).toNat) ∧
      ((0x80 : Byte).toNat > (0x7F : Byte).toNat) := by decide

/-- Mask 0, a mask that shares a bit of f = 0x04, and one that shares none. -/
theorem witness_JmpTakenIffMaskZeroOrShared :
    (busy []).params.WF ∧ (busy []).regOf 0x04 = some .d ∧ (busy []).reg .f &&& 0x05 ≠ 0 ∧
      (busy []).reg .f &&& 0xFB = 0 := by decide

/-- JP7: and dst 0 names no register. -/
theorem witness_JmpNotTakenHasNoEffect :
    (busy []).params.WF ∧ (0x01 : Byte) ≠ 0 ∧ (busy []).reg .f &&& 0x01 = 0 ∧ (busy []).regOf 0x00 = none := by decide

/-- A bad LEFT with any RIGHT, a good LEFT with a bad RIGHT, the converse, and a taken jump to none. -/
theorem witness_UnknownOperandFaults :
    (busy []).params.WF ∧ (busy []).regOf 0x09 = none ∧ (busy []).regOf 0x01 ≠ none ∧ (busy []).regOf 0x00 = none ∧
      ((0x00 : Byte) = 0 ∨ (busy []).reg .f &&& 0x00 ≠ 0) ∧ ((0x04 : Byte) = 0 ∨ (busy []).reg .f &&& 0x04 ≠ 0) := by
  decide

theorem witness_IdentifiersNameTheirRegisters :
    State.reset.cfg.WF ∧ (0x00 : Byte) ∉ State.reset.cfg.id.toList ∧ (0x08 : Byte) ∉ State.reset.cfg.id.toList := by
  decide

theorem witness_SysDispatchesOnNumber :
    State.reset.cfg.SysNumsDistinct ∧ (0x00 : Byte) ∉ State.reset.cfg.sys.toList ∧
      (0x04 : Byte) ∉ State.reset.cfg.sys.toList := by decide

/-- A string that ends at offset 255 and one of no bytes; and no zero byte from offset 0xFE on. -/
theorem witness_ReadStringStopsAtZero :
    (let s := session [(0x3FE, 0x61)] []
     s.params.WF ∧ s.StringAt 0xFE 1 ∧ s.StringAt 0xFF 0) ∧
    (let s := session [(0x3FE, 0x61), (0x3FF, 0x62)] []
     s.params.WF ∧ s.Unterminated 0xFE) := by
  refine ⟨⟨by decide, ⟨by decide, fun k hk => ?_, rfl⟩, ⟨by decide, fun k hk => absurd hk (Nat.not_lt_zero k), rfl⟩⟩,
    by decide, fun k hk => ?_⟩
  · obtain rfl : k = 0 := by omega
    decide
  · have hk : k = 0 ∨ k = 1 := by
      simp at hk
      omega
    rcases hk with rfl | rfl <;> decide

/-- Answers at their bounds. -/
theorem witness_HostAnswersKeepTheirBounds :
    (∃ t, hostWrite 0x01 [0x48, 0x69] (busy [.answer (.ok 2 [])]) = .ok (some 2) t) ∧
    (∃ t, hostRead 0x01 2 (busy [.answer (.ok 0 [0x61, 0x62])]) = .ok (some [0x61, 0x62]) t) ∧
    (∀ cnt, some 2 = some cnt → cnt ≤ ([0x48, 0x69] : List Byte).length) ∧
    (∀ data, some ([0x61, 0x62] : List Byte) = some data → data.length ≤ 2) :=
  ⟨⟨_, rfl⟩, ⟨_, rfl⟩, fun cnt h => by cases h; decide, fun data h => by cases h; decide⟩

theorem witness_HostNeverWritesTheBuffer :
    ∃ t, hostCall (.readReq 1 2) (busy [.answer (.ok 0 [0x61])]) = .ok (.ok 0 [0x61]) t := ⟨_, rfl⟩

theorem witness_SysWriteStoresCount :
    let s := busy [.answer (.ok 2 [])]
    s.params.WF ∧ s.regOf 0x04 = some .d ∧ s.hostAnswerTo s.writeRequest = some (.ok 2 []) := by decide

/-- Both values of SYS_READ_SETS_DST. -/
theorem witness_SysReadFillsRam :
    (let s := busy [.answer (.ok 0 [0x61, 0x62])]
     s.params.WF ∧ s.cfg.SysNumsDistinct ∧ s.hostAnswerTo s.readRequest = some (.ok 0 [0x61, 0x62]) ∧
      s.params.sysReadSetsDst = true ∧ s.regOf 0x04 = some .d) ∧
    (let s : State := { busy [.answer (.ok 0 [])] with params := { Params.reference with sysReadSetsDst := false } }
     s.params.WF ∧ s.cfg.SysNumsDistinct ∧ s.hostAnswerTo s.readRequest = some (.ok 0 []) ∧
      s.params.sysReadSetsDst = false) := by decide

/-- A session whose register a points at the path "f", with the host's answer given. -/
def opening (a : HostAnswer) : State := session [(0x350, 0x66), (0x400, 0x50), (0x403, 0x09)] [.answer a]

theorem opening_stringAt (a : HostAnswer) : (opening a).StringAt ((opening a).reg .a) 1 := by
  refine ⟨show (0x50 : Byte).toNat + 1 ≤ 255 by decide, fun k hk => ?_, rfl⟩
  obtain rfl : k = 0 := by omega
  show (0x66 : Byte) ≠ 0x00
  decide

/-- The largest descriptor that fits (SY16), and a path of the two bytes at the edges of R234's range. -/
theorem witness_SysOpenStoresDescriptor :
    let s := opening (.ok 255 [])
    s.params.WF ∧ s.cfg.SysNumsDistinct ∧ s.regOf 0x04 = some .d ∧ s.StringAt (s.reg .a) 1 ∧
      s.hostAnswerTo (s.openRequest 1) = some (.ok 255 []) ∧ 255 ≤ 255 ∧
      ∀ b ∈ ([0x01, 0x7F] : List Byte), 0x01 ≤ b.toNat ∧ b.toNat ≤ 0x7F :=
  ⟨by decide, by decide, rfl, opening_stringAt _, rfl, by decide, by decide⟩

theorem witness_HostFailureChangesNothing :
    (opening .err).params.WF ∧ (opening .err).hostAnswerTo (opening .err).writeRequest = some .err ∧
      (opening .err).hostAnswerTo (opening .err).readRequest = some .err ∧
      (opening .err).StringAt ((opening .err).reg .a) 1 ∧
      (opening .err).hostAnswerTo ((opening .err).openRequest 1) = some .err :=
  ⟨by decide, rfl, rfl, opening_stringAt _, rfl⟩

/-- A path without an end at the last offset, and the smallest descriptor that does not fit (SY17). -/
theorem witness_SysOpenFaults :
    (let s := session [(0x3FF, 0x41), (0x400, 0xFF)] []
     s.params.WF ∧ s.Unterminated (s.reg .a)) ∧
    (let s := opening (.ok 256 [])
     s.params.WF ∧ s.StringAt (s.reg .a) 1 ∧ s.hostAnswerTo (s.openRequest 1) = some (.ok 256 []) ∧ 256 > 255) := by
  refine ⟨⟨by decide, fun k hk => ?_⟩, by decide, opening_stringAt _, rfl, by decide⟩
  have hk : k ≤ 0 := by
    have h : (session [(0x3FF, 0x41), (0x400, 0xFF)] []).reg .a = 0xFF := rfl
    rw [h] at hk
    simp at hk
    omega
  obtain rfl : k = 0 := by omega
  decide

theorem witness_BadResultRegisterFaultsAfterHostCall :
    let s := opening (.ok 255 [0x61])
    s.params.WF ∧ s.regOf 0x00 = none ∧ s.hostAnswerTo s.writeRequest = some (.ok 255 [0x61]) ∧
      s.hostAnswerTo s.readRequest = some (.ok 255 [0x61]) ∧ s.params.sysReadSetsDst = true ∧
      s.StringAt (s.reg .a) 1 ∧ s.hostAnswerTo (s.openRequest 1) = some (.ok 255 [0x61]) ∧ 255 ≤ 255 :=
  ⟨by decide, rfl, rfl, rfl, rfl, opening_stringAt _, rfl, by decide⟩

theorem witness_UnansweredHostCallIsStuck :
    let s : State := { opening .err with hostScript := [.never] }
    s.params.WF ∧ s.hostScript = .never :: [] ∧ s.StringAt (s.reg .a) 1 :=
  ⟨by decide, rfl, opening_stringAt .err⟩

theorem witness_CountsWrapDescriptorsFault :
    (busy []).params.WF ∧ (busy []).regOf 0x04 = some .d ∧ 256 > 255 ∧ 255 ≤ 255 := by decide

theorem witness_RegisterFormsFrame :
    (busy []).params.WF ∧ (∃ t, exec (.imm 0x01 0x02) (busy []) = .next t) ∧
      (∃ t, exec (.add 0x01 0x02) (busy []) = .next t) ∧ (∃ t, exec (.ldm 0x01 0x02) (busy []) = .next t) ∧
      (∃ t, exec (.cmp 0x01 0x02) (busy []) = .next t) ∧ (∃ t, exec (.jmp 0x04 0x02) (busy []) = .next t) :=
  ⟨by decide, ⟨_, rfl⟩, ⟨_, rfl⟩, ⟨_, rfl⟩, ⟨_, rfl⟩, _, rfl⟩

theorem witness_StmFrame : (busy []).params.WF ∧ ∃ t, exec (.stm 0x02 0x01) (busy []) = .next t :=
  ⟨by decide, _, rfl⟩

/-- The four forms. -/
theorem witness_StkFrame :
    (busy []).params.WF ∧ (∃ t, exec (.stk 0x00 0x00) (busy []) = .next t) ∧
      (∃ t, exec (.stk 0x00 0x03) (busy []) = .next t) ∧ (∃ t, exec (.stk 0x04 0x00) (busy []) = .next t) ∧
      (∃ t, exec (.stk 0x04 0x03) (busy []) = .next t) :=
  ⟨by decide, ⟨_, rfl⟩, ⟨_, rfl⟩, ⟨_, rfl⟩, _, rfl⟩

/-- Each instruction and each number the clauses name, and a path without an end. -/
theorem witness_SysWriteOpenFrame :
    (let s := opening (.ok 3 [])
     s.params.WF ∧ (∃ t, exec (.sysWrite 0x04) s = .next t) ∧ (∃ t, exec (.sysOpen 0x04) s = .next t) ∧
      (0x03 : Byte) ≠ s.cfg.sys.readNum ∧ 0x03 = s.cfg.sys.writeNum ∧ (∃ t, exec (.sys 0x03 0x04) s = .next t) ∧
      (0x01 : Byte) ≠ s.cfg.sys.readNum ∧ 0x01 ≠ s.cfg.sys.writeNum ∧ 0x01 = s.cfg.sys.openNum ∧
      (∃ t, exec (.sys 0x01 0x04) s = .next t) ∧
      (0x00 : Byte) ∉ s.cfg.sys.toList ∧ ∃ t, exec (.sys 0x00 0x04) s = .next t) ∧
    (let s := session [(0x3FF, 0x41), (0x400, 0xFF)] []
     s.params.WF ∧ ∃ t, exec (.sysOpen 0x04) s = .next t) :=
  ⟨⟨by decide, ⟨_, rfl⟩, ⟨_, rfl⟩, by decide, rfl, ⟨_, rfl⟩, by decide, by decide, rfl, ⟨_, rfl⟩, by decide, _, rfl⟩,
    by decide, _, rfl⟩

/-- A success and an error. -/
theorem witness_SysReadFrame :
    (let s := busy [.answer (.ok 0 [0x61, 0x62])]
     s.params.WF ∧ s.hostAnswerTo s.readRequest = some (.ok 0 [0x61, 0x62]) ∧ ∃ t, exec (.sysRead 0x04) s = .next t) ∧
    (let s := busy [.answer .err]
     s.params.WF ∧ s.hostAnswerTo s.readRequest = some .err ∧ ∃ t, exec (.sysRead 0x04) s = .next t) :=
  ⟨⟨by decide, rfl, _, rfl⟩, by decide, rfl, _, rfl⟩

end Sys2Proof.Tests
end

section
/-! PROOF. Which registers an instruction can write (10_state.md R30): the one its destination operand names, and the
one it writes by its meaning. `exec_keepsReg` says it once for every register; O20 is its case f. -/

namespace Sys2Proof

/-- The registers an instruction writes without naming them as its destination: s for STK (R160), f for CMP (R190) and
i for JMP (R195). -/
def Instr.implicitWrites : Instr → List Reg
  | .stk _ _ => [.s]
  | .cmp _ _ => [.f]
  | .jmp _ _ => [.i]
  | .imm _ _ => []
  | .add _ _ => []
  | .stm _ _ => []
  | .ldm _ _ => []
  | .sys _ _ => []
  | .sysWrite _ => []
  | .sysRead _ => []
  | .sysOpen _ => []

/-- CMP is the only instruction with f among its implicit writes (R30). -/
theorem Instr.f_not_mem_implicitWrites {i : Instr} (h : ∀ l r, i ≠ .cmp l r) : Reg.f ∉ i.implicitWrites := by
  cases i with
  | cmp l r => exact absurd rfl (h l r)
  | _ => simp [Instr.implicitWrites]

end Sys2Proof

namespace Sys2Proof.Machine

/-- Under the register identifiers `ids` and any admitted register bank, the action leaves the register `q` as it was,
whether it ends or stops. `does` carries the identifiers and the bank over to the action that follows. -/
structure Act.KeepsReg {α : Type} (x : Act α) (ids : RegIds) (q : Reg) : Prop where
  does : x.Does
  reg  : ∀ s : State, s.params.Launchable → s.cfg.id = ids → (finalState (x s)).reg q = s.reg q

section
variable {α β : Type} {ids : RegIds} {q : Reg}

/-- An action that never writes the buffer keeps every register. -/
theorem Act.Does.keepsReg_of_mem {x : Act α} (hx : x.Does) (hm : ∀ s, (finalState (x s)).mem = s.mem) :
    x.KeepsReg ids q where
  does := hx
  reg s _ _ := by
    unfold State.reg State.regAddress
    rw [hm, (hx s).params]

theorem Act.KeepsReg.pure (a : α) : Act.KeepsReg (pure a : Act α) ids q := ⟨Act.Does.pure a, fun _ _ _ => rfl⟩

theorem Act.KeepsReg.raise (f : FaultClass) : Act.KeepsReg (raise f : Act α) ids q :=
  ⟨Act.Does.raise f, fun _ _ _ => rfl⟩

theorem Act.KeepsReg.bind {x : Act α} {f : α → Act β} (hx : x.KeepsReg ids q) (hf : ∀ a, (f a).KeepsReg ids q) :
    Act.KeepsReg (x >>= f) ids q where
  does := hx.does.bind fun a => (hf a).does
  reg s hl hid := by
    have hd := hx.does s
    have hr := hx.reg s hl hid
    rcases hxs : x s with ⟨a, u⟩ | ⟨e, u⟩ <;> rw [hxs] at hd hr
    · rw [Act.bind_ok hxs]
      exact ((hf a).reg u (hd.params ▸ hl) (hd.cfg ▸ hid)).trans hr
    · rw [Act.bind_error hxs]
      exact hr

/-! ## The shared operations -/

theorem look_keepsReg (g : State → α) : (look g).KeepsReg ids q := (look_does g).keepsReg_of_mem fun _ => rfl

theorem readReg_keepsReg (r : Reg) : (readReg r).KeepsReg ids q :=
  (readReg_does r).keepsReg_of_mem fun s => by unfold readReg; split <;> rfl

theorem readRam_keepsReg (o : Byte) : (readRam o).KeepsReg ids q :=
  (readRam_does o).keepsReg_of_mem fun s => by unfold readRam; split <;> rfl

theorem resolve_keepsReg (v : Byte) : (resolve v).KeepsReg ids q :=
  (resolve_does v).keepsReg_of_mem fun s => by unfold resolve; split <;> rfl

theorem hostCall_keepsReg (req : HostRequest) : (hostCall req).KeepsReg ids q :=
  (hostCall_does req).keepsReg_of_mem fun s => by unfold hostCall; split <;> rfl

theorem readId_keepsReg (v : Byte) : (readId v).KeepsReg ids q := (resolve_keepsReg v).bind readReg_keepsReg

/-- The RAM window and the register bank share no byte. -/
theorem writeRam_keepsReg (o v : Byte) : (writeRam o v).KeepsReg ids q where
  does := writeRam_does o v
  reg s _ _ := by
    unfold writeRam
    split
    · exact s.reg_setRam o v q
    · rfl

/-- Two registers share no byte of the bank (D1). -/
theorem writeReg_keepsReg {r : Reg} (hqr : q ≠ r) (v : Byte) : (writeReg r v).KeepsReg ids q where
  does := writeReg_does r v
  reg s hl _ := by
    unfold writeReg
    split
    · exact State.reg_setReg_other hl hqr v
    · rfl

/-- What follows the resolution of a destination that does not name `q` runs with a register other than `q`. -/
theorem resolve_bind_keepsReg {dst : Byte} (hd : regOfId ids dst ≠ some q) {f : Reg → Act β} (hf : ∀ r, (f r).Does)
    (hk : ∀ r, q ≠ r → (f r).KeepsReg ids q) : Act.KeepsReg (resolve dst >>= f) ids q where
  does := (resolve_does dst).bind hf
  reg s hl hid := by
    rcases hr : s.regOf dst with _ | r
    · rw [Act.bind_error (resolve_none hr)]
      rfl
    · have hqr : q ≠ r := by
        rintro rfl
        exact hd (hid ▸ hr)
      rw [Act.bind_ok (resolve_some hr)]
      exact (hk r hqr).reg s hl hid

theorem writeId_keepsReg {dst : Byte} (hd : regOfId ids dst ≠ some q) (v : Byte) : (writeId dst v).KeepsReg ids q :=
  resolve_bind_keepsReg hd (fun r => writeReg_does r v) fun _ hqr => writeReg_keepsReg hqr v

/-! ## The halves of STK -/

theorem stkPush_keepsReg (hq : q ≠ .s) (push : Byte) : (stkPush push).KeepsReg ids q := by
  unfold stkPush
  split
  · exact .pure _
  · exact (readReg_keepsReg _).bind fun _ => (writeReg_keepsReg hq _).bind fun _ => (readId_keepsReg _).bind fun _ =>
      (readReg_keepsReg _).bind fun _ => writeRam_keepsReg _ _

theorem stkPop_keepsReg (hq : q ≠ .s) {pop : Byte} (hd : regOfId ids pop ≠ some q) :
    (stkPop pop).KeepsReg ids q := by
  unfold stkPop
  split
  · exact .pure _
  · exact (readReg_keepsReg _).bind fun _ => (readRam_keepsReg _).bind fun _ => (writeId_keepsReg hd _).bind fun _ =>
      (readReg_keepsReg _).bind fun _ => writeReg_keepsReg hq _

/-! ## The syscalls -/

theorem hostWrite_keepsReg (fd : Byte) (bytes : List Byte) : (hostWrite fd bytes).KeepsReg ids q :=
  (hostCall_keepsReg _).bind fun a => by cases a <;> exact .pure _

theorem hostRead_keepsReg (fd : Byte) (n : Nat) : (hostRead fd n).KeepsReg ids q :=
  (hostCall_keepsReg _).bind fun a => by cases a <;> exact .pure _

theorem hostOpen_keepsReg (path : List Byte) (flags mode : Byte) : (hostOpen path flags mode).KeepsReg ids q :=
  (look_keepsReg _).bind fun _ => (hostCall_keepsReg _).bind fun a => by cases a <;> exact .pure _

theorem readRamSlice_keepsReg (off : Byte) (n : Nat) : (readRamSlice off n).KeepsReg ids q := by
  induction n generalizing off with
  | zero => exact .pure _
  | succ n ih => exact (readRam_keepsReg off).bind fun _ => (ih (off + 1)).bind fun _ => .pure _

theorem writeRamSlice_keepsReg (off : Byte) (data : List Byte) : (writeRamSlice off data).KeepsReg ids q := by
  induction data generalizing off with
  | nil => exact .pure _
  | cons v rest ih => exact (writeRam_keepsReg off v).bind fun _ => ih (off + 1)

theorem readStringFrom_keepsReg (start off : Byte) (fuel : Nat) : (readStringFrom start off fuel).KeepsReg ids q := by
  induction fuel generalizing off with
  | zero => exact .raise _
  | succ n ih =>
    refine (readRam_keepsReg off).bind fun b => ?_
    split
    · exact .pure _
    · exact (ih (off + 1)).bind fun _ => .pure _

variable {dst : Byte} (hd : regOfId ids dst ≠ some q)
include hd

theorem sysWriteAct_keepsReg : (sysWriteAct dst).KeepsReg ids q :=
  (readReg_keepsReg _).bind fun _ => (readReg_keepsReg _).bind fun _ => (readReg_keepsReg _).bind fun _ =>
    (readRamSlice_keepsReg _ _).bind fun _ => (hostWrite_keepsReg _ _).bind fun
      | none => .pure _
      | some _ => writeId_keepsReg hd _

theorem storeReadCount_keepsReg (m : Nat) : (storeReadCount dst m).KeepsReg ids q where
  does := storeReadCount_does dst m
  reg s hl hid := by
    unfold storeReadCount
    split
    · exact (writeId_keepsReg hd _).reg s hl hid
    · rfl

theorem sysReadAct_keepsReg : (sysReadAct dst).KeepsReg ids q :=
  (readReg_keepsReg _).bind fun _ => (readReg_keepsReg _).bind fun _ => (readReg_keepsReg _).bind fun _ =>
    (hostRead_keepsReg _ _).bind fun
      | none => .pure _
      | some _ => (writeRamSlice_keepsReg _ _).bind fun _ => storeReadCount_keepsReg hd _

theorem storeDescriptor_keepsReg (desc : Nat) : (storeDescriptor dst desc).KeepsReg ids q := by
  unfold storeDescriptor
  split
  · exact .raise _
  · exact writeId_keepsReg hd _

theorem sysOpenAct_keepsReg : (sysOpenAct dst).KeepsReg ids q :=
  (readReg_keepsReg _).bind fun _ => (readStringFrom_keepsReg _ _ _).bind fun _ => (readReg_keepsReg _).bind fun _ =>
    (readReg_keepsReg _).bind fun _ => (hostOpen_keepsReg _ _ _).bind fun
      | none => .pure _
      | some _ => storeDescriptor_keepsReg hd _

theorem sysAct_keepsReg (num : Byte) : (sysAct num dst).KeepsReg ids q where
  does := sysAct_does num dst
  reg s hl hid := by
    unfold sysAct
    split
    · exact (sysWriteAct_keepsReg hd).reg s hl hid
    split
    · exact (sysReadAct_keepsReg hd).reg s hl hid
    split
    · exact (sysOpenAct_keepsReg hd).reg s hl hid
    · rfl

end

/-! ## The instructions -/

theorem runInstr_keepsReg {act : Act Unit} {q : Reg} {s t : State} (ha : act.KeepsReg s.cfg.id q)
    (hl : s.params.Launchable) (h : runInstr act s = .next t) : t.reg q = s.reg q := by
  have hr := ha.reg s hl rfl
  rcases settle_cases h with he | ⟨f, u, he, rfl⟩ <;> rw [he] at hr <;> exact hr

/-- An instruction, also when it faults, writes no register but those of `Instr.implicitWrites` and the one its
destination names. -/
theorem exec_keepsReg (i : Instr) {q : Reg} {s t : State} (hl : s.params.Launchable) (hq : q ∉ i.implicitWrites)
    (hd : ∀ v, i.destination = some v → s.regOf v ≠ some q) (h : exec i s = .next t) : t.reg q = s.reg q := by
  cases i with
  | imm dst val => exact runInstr_keepsReg (writeId_keepsReg (hd dst rfl) val) hl h
  | add dst src =>
    exact runInstr_keepsReg (resolve_bind_keepsReg (hd dst rfl)
      (fun _ => (readId_does src).bind fun _ => (readReg_does _).bind fun _ => writeReg_does _ _)
      fun _ hqr => (readId_keepsReg src).bind fun _ => (readReg_keepsReg _).bind fun _ => writeReg_keepsReg hqr _) hl h
  | stk pop push =>
    have hqs : q ≠ .s := by simpa [Instr.implicitWrites] using hq
    exact runInstr_keepsReg ((stkPush_keepsReg hqs push).bind fun _ => stkPop_keepsReg hqs (hd pop rfl)) hl h
  | stm dst src =>
    exact runInstr_keepsReg ((readId_keepsReg dst).bind fun _ => (readId_keepsReg src).bind fun _ =>
      writeRam_keepsReg _ _) hl h
  | ldm dst src =>
    exact runInstr_keepsReg ((readId_keepsReg src).bind fun _ => (readRam_keepsReg _).bind fun _ =>
      writeId_keepsReg (hd dst rfl) _) hl h
  | cmp left right =>
    have hqf : q ≠ .f := by simpa [Instr.implicitWrites] using hq
    exact runInstr_keepsReg ((readId_keepsReg left).bind fun _ => (readId_keepsReg right).bind fun _ =>
      writeReg_keepsReg hqf _) hl h
  | jmp flags dst =>
    have hqi : q ≠ .i := by simpa [Instr.implicitWrites] using hq
    refine runInstr_keepsReg ((readReg_keepsReg .f).bind fun fl => ?_) hl h
    split
    · exact (readId_keepsReg dst).bind fun _ => writeReg_keepsReg hqi _
    · exact .pure _
  | sys num dst => exact runInstr_keepsReg (sysAct_keepsReg (hd dst rfl) num) hl h
  | sysWrite dst => exact runInstr_keepsReg (sysWriteAct_keepsReg (hd dst rfl)) hl h
  | sysRead dst => exact runInstr_keepsReg (sysReadAct_keepsReg (hd dst rfl)) hl h
  | sysOpen dst => exact runInstr_keepsReg (sysOpenAct_keepsReg (hd dst rfl)) hl h

/-- Settles O20: it holds, by `exec_keepsReg` for f, which only CMP has among its implicit writes. -/
theorem onlyCmpWritesFlagsAsSideEffect : Obligations.OnlyCmpWritesFlagsAsSideEffect := by
  unfold Obligations.OnlyCmpWritesFlagsAsSideEffect
  intro i s t hp h hcmp hd
  exact exec_keepsReg i hp.1 (Instr.f_not_mem_implicitWrites hcmp) hd h

end Sys2Proof.Machine
end

section
/-! PROOF. The RAM window (20_memory.md R53): each access as one bound on its address, which addresses the window has,
and that none of them is a register's. -/

namespace Sys2Proof.Machine

/-- R53, R54: the range check of a one-byte read says that its address lies in the buffer. -/
theorem readRam_eq_ite (o : Byte) (s : State) :
    readRam o s = if ramAddress o < s.params.memSize then .ok (s.ram o) s
      else .error (.raised (.addressOutOfRange (ramAddress o))) s := by
  simp only [readRam, Nat.succ_le_iff]

/-- R53, R54: the range check of a one-byte write says that its address lies in the buffer. -/
theorem writeRam_eq_ite (o v : Byte) (s : State) :
    writeRam o v s = if ramAddress o < s.params.memSize then .ok () (s.setRam o v)
      else .error (.raised (.addressOutOfRange (ramAddress o))) s := by
  simp only [writeRam, Nat.succ_le_iff]

/-- Every address of the window is the address of its distance from the base, which fits a byte. -/
theorem exists_ramAddress_eq_iff (a : Nat) : (∃ o, ramAddress o = a) ↔ 0x300 ≤ a ∧ a ≤ 0x3FF := by
  constructor
  · rintro ⟨o, rfl⟩
    have ho := ramAddress_bounds o
    omega
  · rintro ⟨hlo, hhi⟩
    refine ⟨BitVec.ofNat 8 (a - 0x300), ?_⟩
    have hbyte : (BitVec.ofNat 8 (a - 0x300)).toNat = a - 0x300 := by
      rw [BitVec.toNat_ofNat, Nat.mod_eq_of_lt (by omega)]
    rw [ramAddress, hbyte, ramBase]
    omega

/-- Settles O24: it holds, by the equations of the two accesses, the addresses of the window, and the bank's place
behind them. -/
theorem ramPrimitivesReachTheWindow : Obligations.RamPrimitivesReachTheWindow := by
  unfold Obligations.RamPrimitivesReachTheWindow
  refine ⟨fun s o v => ⟨readRam_eq_ite o s, writeRam_eq_ite o v s⟩, exists_ramAddress_eq_iff, ?_⟩
  exact fun s r o => ramAddress_ne_regAddress s o r

end Sys2Proof.Machine
end

section
/-! PROOF. The decoder (30_encoding.md R82, R84): what it answers with a kind selected and with none, and that it looks
at the three bytes only at the places of the field order. -/

namespace Sys2Proof

/-- A byte that is no kind's opcode selects no kind. -/
theorem kindOf_eq_none_of_ne_ofKind {op : OpCodes} {opc : Byte} (h : ∀ k, opc ≠ op.ofKind k) :
    kindOf op opc = none :=
  Option.eq_none_iff_forall_ne_some.mpr fun k hk => h k (ofKind_of_kindOf hk).symm

theorem decodeKind_of_kindOf_eq_some {fo : FieldOrder} {op : OpCodes} {w : InstrBytes} {k : OpKind}
    (h : kindOf op (w.get fo.op) = some k) :
    decodeKind fo op w = .ok { kind := k, left := w.get fo.left, right := w.get fo.right } := by
  rw [decodeKind, h]

theorem decodeKind_of_kindOf_eq_none {fo : FieldOrder} {op : OpCodes} {w : InstrBytes}
    (h : kindOf op (w.get fo.op) = none) : decodeKind fo op w = .error (.unrecognizedOpcode (w.get fo.op)) := by
  rw [decodeKind, h]

/-- R84: bytes that agree field by field, each read at the places of its own field order, decode alike. -/
theorem decodeKind_congr {fo fo' : FieldOrder} {w w' : InstrBytes} (op : OpCodes)
    (hop : w'.get fo'.op = w.get fo.op) (hleft : w'.get fo'.left = w.get fo.left)
    (hright : w'.get fo'.right = w.get fo.right) : decodeKind fo' op w' = decodeKind fo op w := by
  simp only [decodeKind, hop, hleft, hright]

/-- Settles O2: it holds, since by W1 the opcode of a kind selects that kind, and no other byte selects one. -/
theorem decoderSelectsKindByOpcode : Obligations.DecoderSelectsKindByOpcode := by
  unfold Obligations.DecoderSelectsKindByOpcode
  intro fo op w hdistinct
  constructor
  · intro k hk
    have hkind : kindOf op (w.get fo.op) = some k := hk ▸ kindOf_ofKind hdistinct k
    exact decodeKind_of_kindOf_eq_some hkind
  · intro hne
    exact decodeKind_of_kindOf_eq_none (kindOf_eq_none_of_ne_ofKind hne)

/-- Settles O3: it holds, since the permuted order finds in the permuted bytes the same byte for each field. -/
theorem decodeUnchangedByConsistentPermutation : Obligations.DecodeUnchangedByConsistentPermutation := by
  unfold Obligations.DecodeUnchangedByConsistentPermutation
  intro p fo op w w' hperm
  exact decodeKind_congr op (hperm fo.op) (hperm fo.left) (hperm fo.right)

end Sys2Proof
end

section
/-! PROOF. JMP (43_compare_branch.md R195, R196): what the branch evaluator asks of the mask and f, and what the
instruction does for each of its two answers. -/

namespace Sys2Proof.Machine

/-- R196: the branch evaluator as a condition on the two bytes. -/
theorem jumpTaken_iff (fl mask : Byte) : jumpTaken fl mask = true ↔ mask = 0 ∨ fl &&& mask ≠ 0 := by
  simp [jumpTaken]

/-- R195: a taken JMP to a register `rd` writes the value of `rd` into i. -/
theorem exec_jmp_of_taken {s : State} (hp : s.params.WF) {flags dst : Byte} {rd : Reg}
    (htaken : jumpTaken (s.reg .f) flags = true) (hdst : s.regOf dst = some rd) :
    exec (.jmp flags dst) s = .next (s.setReg .i (s.reg rd)) := by
  refine runInstr_ok ?_
  rw [Act.bind_ok (readReg_eq hp .f), if_pos htaken, Act.bind_ok (readId_some hp hdst)]
  exact writeReg_eq hp .i _

/-- R195 with D8: a JMP that is not taken does nothing, and its `dst` need name no register. -/
theorem exec_jmp_of_not_taken {s : State} (hp : s.params.WF) {flags : Byte} (dst : Byte)
    (hnot : ¬ jumpTaken (s.reg .f) flags = true) : exec (.jmp flags dst) s = .next s := by
  refine runInstr_ok ?_
  rw [Act.bind_ok (readReg_eq hp .f), if_neg hnot]
  exact Act.pure_eq () s

/-- Settles O39: it holds, by the two ends of JMP, chosen by the branch evaluator's condition on the mask and f. -/
theorem jmpTakenIffMaskZeroOrShared : Obligations.JmpTakenIffMaskZeroOrShared := by
  unfold Obligations.JmpTakenIffMaskZeroOrShared
  intro s flags dst rd hp hdst
  by_cases htaken : flags = 0 ∨ s.reg .f &&& flags ≠ 0
  · rw [if_pos htaken]
    exact exec_jmp_of_taken hp ((jumpTaken_iff _ _).mpr htaken) hdst
  · rw [if_neg htaken]
    exact exec_jmp_of_not_taken hp dst (mt (jumpTaken_iff _ _).mp htaken)

end Sys2Proof.Machine
end

section
/-! PROOF. The clamp of SYS write and SYS read (44_sys.md R222): the bounds of the length it leaves. -/

namespace Sys2Proof.Machine

/-- R222: a clamped length fits a byte, since the clamp never exceeds the length it cuts. -/
theorem clamp_le_255 (off len : Byte) : clamp off len ≤ 255 :=
  calc clamp off len ≤ len.toNat := Nat.min_le_left _ _
    _ ≤ 255 := Nat.le_of_lt_succ len.isLt

/-- Settles O44: it holds, the minimum by definition, its first bound from the length and its second from the window. -/
theorem clampKeepsTransferInWindow : Obligations.ClampKeepsTransferInWindow := by
  unfold Obligations.ClampKeepsTransferInWindow
  intro off len
  exact ⟨rfl, clamp_le_255 off len, clamp_le off len⟩

end Sys2Proof.Machine
end

section
/-! PROOF. The three syscalls once the host has answered (44_sys.md R223, R226, R228), and the answer Err
(60_exceptions.md R263). -/

namespace Sys2Proof.Machine

section
variable {s : State} (hp : s.params.WF) {a : HostAnswer} (dst : Byte)
include hp

/-- A string that stands in the window is read whole, and reading it changes nothing (R55). -/
theorem readString_of_stringAt {off : Byte} {n : Nat} (h : s.StringAt off n) :
    readString off s = .ok (s.mem.readBytes (0x300 + off.toNat) n) s := by
  obtain ⟨hfits, hnonzero, hzero⟩ := h
  exact readStringFrom_terminated hp off hfits (by omega) hnonzero hzero

/-- R223: an answered SYS write has sent its request, and stores the count only if the answer has one. -/
theorem sysWriteAct_answered (h : s.hostAnswerTo s.writeRequest = some a) :
    sysWriteAct dst s =
      (HostAnswer.asCount (clamp (s.reg .b) (s.reg .c)) a).elim (pure ()) (storeCount dst)
        (s.afterHostCall s.writeRequest) := by
  rw [sysWriteAct, Act.bind_ok (readReg_eq hp .a), Act.bind_ok (readReg_eq hp .b), Act.bind_ok (readReg_eq hp .c),
    Act.bind_ok (readRamSlice_eq hp (clamp_le _ _)),
    Act.bind_ok (hostWrite_answered (bytes := s.mem.readBytes (ramAddress _) _) h), Memory.readBytes_length]
  cases a <;> rfl

/-- R226: an answered SYS read has sent its request, and writes RAM and `dst` only if the answer has data. -/
theorem sysReadAct_answered (h : s.hostAnswerTo s.readRequest = some a) :
    sysReadAct dst s =
      (HostAnswer.asData (clamp (s.reg .b) (s.reg .c)) a).elim (pure ())
        (fun data => writeRamSlice (s.reg .b) data >>= fun _ => storeReadCount dst data.length)
        (s.afterHostCall s.readRequest) := by
  rw [sysReadAct, Act.bind_ok (readReg_eq hp .a), Act.bind_ok (readReg_eq hp .b), Act.bind_ok (readReg_eq hp .c),
    Act.bind_ok (hostRead_answered h)]
  cases a <;> rfl

/-- R228: an answered SYS open has sent its request, and stores the descriptor only if the answer has one. -/
theorem sysOpenAct_answered {n : Nat} (hpath : s.StringAt (s.reg .a) n)
    (h : s.hostAnswerTo (s.openRequest n) = some a) :
    sysOpenAct dst s =
      (HostAnswer.asDescriptor a).elim (pure ()) (storeDescriptor dst) (s.afterHostCall (s.openRequest n)) := by
  rw [sysOpenAct, Act.bind_ok (readReg_eq hp .a), Act.bind_ok (readString_of_stringAt hp hpath),
    Act.bind_ok (readReg_eq hp .b), Act.bind_ok (readReg_eq hp .c), Act.bind_ok (hostOpen_answered h)]
  cases a <;> rfl

end

/-- Settles O51: it holds, since Err carries no count, data or descriptor, and an answered call without one ends right
after the request. -/
theorem hostFailureChangesNothing : Obligations.HostFailureChangesNothing := by
  unfold Obligations.HostFailureChangesNothing
  intro s dst n hp
  refine ⟨fun herr => ?sysWrite, fun herr => ?sysRead, fun hpath herr => ?sysOpen, fun _ => ⟨rfl, rfl⟩⟩
  case sysWrite => exact runInstr_ok (sysWriteAct_answered hp dst herr)
  case sysRead => exact runInstr_ok (sysReadAct_answered hp dst herr)
  case sysOpen => exact runInstr_ok (sysOpenAct_answered hp dst hpath herr)

end Sys2Proof.Machine
end

section
/-! PROOF. Decoding and encoding undo each other (30_encoding.md R81, R82, R85, R88): first for the kind with its raw
operands, then for the table row that they select. -/

namespace Sys2Proof

/-- R81, R82: fields placed by the field order are found again, and the opcode selects the kind it was placed for. -/
theorem decodeKind_placeFields {fo : FieldOrder} {op : OpCodes} (hfo : fo.IsPermutation) (hop : op.toList.Nodup)
    (d : Decoded) : decodeKind fo op (placeFields fo (op.ofKind d.kind) d.left d.right) = .ok d := by
  rw [decodeKind_of_kindOf_eq_some (k := d.kind)]
  · simp only [placeFields_get, placedByte_left hfo, placedByte_right hfo]
  · simp only [placeFields_get, placedByte_op, kindOf_ofKind hop]

/-- Placing the fields read from three bytes gives the three bytes back (W5). -/
theorem placeFields_get_fields {fo : FieldOrder} (hfo : fo.IsPermutation) (w : InstrBytes) :
    placeFields fo (w.get fo.op) (w.get fo.left) (w.get fo.right) = w := by
  refine InstrBytes.ext_get fun k => ?_
  rw [placeFields_get]
  rcases FieldOrder.covers hfo k with rfl | rfl | rfl
  · exact placedByte_op ..
  · exact placedByte_left hfo ..
  · exact placedByte_right hfo ..

/-- What decodes was placed: the bytes are the decoded kind's opcode and operands at their places. -/
theorem placeFields_of_decodeKind {fo : FieldOrder} {op : OpCodes} {w : InstrBytes} {d : Decoded}
    (hfo : fo.IsPermutation) (h : decodeKind fo op w = .ok d) :
    placeFields fo (op.ofKind d.kind) d.left d.right = w := by
  rcases hk : kindOf op (w.get fo.op) with _ | k
  · rw [decodeKind_of_kindOf_eq_none hk] at h
    cases h
  · rw [decodeKind_of_kindOf_eq_some hk] at h
    cases h
    rw [ofKind_of_kindOf hk]
    exact placeFields_get_fields hfo w

/-- The decoder answers the row that the kind and operands of R82 select. -/
theorem decode_eq_ok_iff {cfg : Config} {w : InstrBytes} {i : Instr} :
    decode cfg w = .ok i ↔ ∃ d, decodeKind cfg.fo cfg.op w = .ok d ∧ instrOf cfg.sys d = i := by
  rw [decode]
  rcases decodeKind cfg.fo cfg.op w with e | d <;> simp

/-- The row an instruction's own kind and operands select is the instruction itself (W6). -/
theorem instrOf_fields {n : SysNums} (hn : n.toList.Nodup) {i : Instr} (hi : i.WF n) : instrOf n (i.fields n) = i := by
  cases i with
  | imm dst val => exact Laws.RowSelected.imm dst val n hn hi
  | add dst src => exact Laws.RowSelected.add dst src n hn hi
  | stk pop push => exact Laws.RowSelected.stk pop push n hn hi
  | stm dst src => exact Laws.RowSelected.stm dst src n hn hi
  | ldm dst src => exact Laws.RowSelected.ldm dst src n hn hi
  | cmp left right => exact Laws.RowSelected.cmp left right n hn hi
  | jmp flags dst => exact Laws.RowSelected.jmp flags dst n hn hi
  | sys num dst => exact Laws.RowSelected.sys num dst n hn hi
  | sysWrite dst => exact Laws.RowSelected.sysWrite dst n hn hi
  | sysRead dst => exact Laws.RowSelected.sysRead dst n hn hi
  | sysOpen dst => exact Laws.RowSelected.sysOpen dst n hn hi

/-- The row of a decoded instruction is well-formed and keeps its kind and operands: the row SYS is selected only for
a number without a row of its own (R221). -/
theorem fields_instrOf (n : SysNums) (d : Decoded) : (instrOf n d).fields n = d ∧ (instrOf n d).WF n := by
  obtain ⟨kind, left, right⟩ := d
  cases kind with
  | sys =>
    by_cases hw : left = n.writeNum
    · subst hw; simp [instrOf, Instr.fields]
    by_cases hr : left = n.readNum
    · subst hr; simp [instrOf, Instr.fields, hw]
    by_cases ho : left = n.openNum
    · subst ho; simp [instrOf, Instr.fields, hw, hr]
    · simp [instrOf, Instr.fields, Instr.WF, SysNums.toList, hw, hr, ho]
  | _ => exact ⟨rfl, trivial⟩

/-- Settles O4: it holds, since the placed fields decode to the instruction's kind and operands (W1, W5), which select
its row (W6). -/
theorem decodeInvertsEncode : Obligations.DecodeInvertsEncode := by
  unfold Obligations.DecodeInvertsEncode
  rintro cfg i ⟨hop, -, -, -, hfo, hsys⟩ hi
  exact decode_eq_ok_iff.mpr ⟨i.fields cfg.sys, decodeKind_placeFields hfo hop _, instrOf_fields hsys hi⟩

/-- Settles O5: it holds, since the row of what the bytes decode to keeps kind and operands, and those are placed in the
bytes. -/
theorem encodeInvertsDecode : Obligations.EncodeInvertsDecode := by
  unfold Obligations.EncodeInvertsDecode
  rintro cfg w i ⟨-, -, -, -, hfo, -⟩ h
  obtain ⟨d, hd, rfl⟩ := decode_eq_ok_iff.mp h
  obtain ⟨hfields, hwf⟩ := fields_instrOf cfg.sys d
  refine ⟨?_, hwf⟩
  rw [encode, hfields]
  exact placeFields_of_decodeKind hfo hd

/-- Settles O1: it holds, each word by running the decoder on it. -/
theorem sampleWordsDecode : Obligations.SampleWordsDecode :=
  ⟨rfl, rfl, rfl, rfl, rfl, rfl, rfl, rfl, rfl, rfl, rfl, rfl, rfl, rfl, rfl, rfl⟩

end Sys2Proof
end

section
/-! PROOF. The session as a whole (10_state.md R20, R31; 20_memory.md R50, R64): what a step of a session does is what
its stages do, and what every step keeps holds of every state reached. -/

namespace Sys2Proof.Machine

/-- What the five stages do (R116, R261): `Effect`, and then a fault, if one is raised. -/
theorem runStages_does {s t : State} (h : runStages s = .next t) :
    ∃ u, Effect s u ∧ (t = u ∨ ∃ f o, t = takeFault f o u) := by
  have hfetch := fetchDecode_does s
  unfold runStages at h
  rcases hr : fetchDecode s with ⟨i, u⟩ | ⟨e, u⟩ <;> rw [hr] at h hfetch
  · obtain ⟨v, hexec, hend⟩ := exec_does i h
    exact ⟨v, hfetch.trans hexec, hend.imp_right fun ⟨f, ht⟩ => ⟨f, _, ht⟩⟩
  · rcases settle_cases h with hok | ⟨f, v, herr, rfl⟩
    · cases hok
    · cases herr
      exact ⟨_, hfetch, .inr ⟨f, _, rfl⟩⟩

/-- What every step does. -/
theorem step_does {s t : State} (h : step s = .next t) : ∃ u, Effect s u ∧ (t = u ∨ ∃ f o, t = takeFault f o u) :=
  runStages_does (step_next h).2

/-- The invariant speaks of nothing that an `Effect` can break. -/
theorem State.Inv.of_effect {s t : State} (hs : s.Inv) (h : Effect s t) : t.Inv where
  cfgWF := h.cfg ▸ hs.cfgWF
  launchable := h.params ▸ hs.launchable
  memCanonical := h.canonical hs.memCanonical
  memInBuffer := h.inBuffer hs.memInBuffer

/-- Taking a fault writes nothing but the status, of which the invariant does not speak. -/
theorem State.Inv.takeFault {s : State} (hs : s.Inv) (f : FaultClass) (o : Byte) : (takeFault f o s).Inv :=
  ⟨hs.cfgWF, hs.launchable, hs.memCanonical, hs.memInBuffer⟩

/-- Settles O17: it holds, since a step is an `Effect`, which keeps the invariant, and at most a fault taken. -/
theorem stepKeepsInvariant : Obligations.StepKeepsInvariant := by
  unfold Obligations.StepKeepsInvariant
  intro s t hs h
  obtain ⟨u, heffect, rfl | ⟨f, o, rfl⟩⟩ := step_does h
  · exact hs.of_effect heffect
  · exact (hs.of_effect heffect).takeFault f o

/-- What a session keeps from `s` to any later state `t`: its configuration and parameters, every byte below the RAM
window, and the requests it has made. -/
structure SessionKept (s t : State) : Prop where
  cfg    : t.cfg = s.cfg
  params : t.params = s.params
  code   : ∀ a, a < ramBase → t.mem.read a = s.mem.read a
  log    : s.hostLog <+: t.hostLog

theorem Effect.sessionKept {s t : State} (h : Effect s t) : SessionKept s t := ⟨h.cfg, h.params, h.code, h.log⟩

theorem SessionKept.trans {s t u : State} (h : SessionKept s t) (k : SessionKept t u) : SessionKept s u where
  cfg := k.cfg.trans h.cfg
  params := k.params.trans h.params
  code a ha := (k.code a ha).trans (h.code a ha)
  log := h.log.trans k.log

theorem step_sessionKept {s t : State} (h : step s = .next t) : SessionKept s t := by
  obtain ⟨u, heffect, rfl | ⟨f, o, rfl⟩⟩ := step_does h
  · exact heffect.sessionKept
  · exact ⟨heffect.cfg, heffect.params, heffect.code, heffect.log⟩

theorem State.Reaches.sessionKept {s t : State} (h : s.Reaches t) : SessionKept s t := by
  induction h with
  | refl => exact (Effect.refl s).sessionKept
  | step _ hstep ih => exact ih.trans (step_sessionKept hstep)

/-- Settles O18: it holds, since every step, and so every run, keeps the bytes below the RAM window. -/
theorem codeRegionIsConstant : Obligations.CodeRegionIsConstant := by
  unfold Obligations.CodeRegionIsConstant
  exact fun s t h => h.sessionKept.code

/-- Settles O19: it holds, since every step, and so every run, keeps configuration and parameters and only appends to
the history. -/
theorem configurationIsFixed : Obligations.ConfigurationIsFixed := by
  unfold Obligations.ConfigurationIsFixed
  exact fun s t h => ⟨h.sessionKept.cfg, h.sessionKept.params, h.sessionKept.log⟩

end Sys2Proof.Machine
end

section
/-! PROOF. The opcode map (30_encoding.md R88): how many bytes select no kind. -/

namespace Sys2Proof

/-- Every byte, in rising order. -/
def allBytes : List Byte := (List.range 256).map (BitVec.ofNat 8)

theorem mem_allBytes (b : Byte) : b ∈ allBytes :=
  List.mem_map.mpr ⟨b.toNat, List.mem_range.mpr b.isLt, BitVec.eq_of_toNat_eq (by simp)⟩

theorem nodup_allBytes : allBytes.Nodup := by
  refine List.Nodup.map_on (fun x hx y hy h => ?_) List.nodup_range
  have hxy : x % 256 = y % 256 := congrArg BitVec.toNat h
  rwa [Nat.mod_eq_of_lt (List.mem_range.mp hx), Nat.mod_eq_of_lt (List.mem_range.mp hy)] at hxy

/-- Of all bytes, as many stand in a list without repetitions as it is long. -/
theorem countP_mem_allBytes {bs : List Byte} (h : bs.Nodup) : allBytes.countP (· ∈ bs) = bs.length := by
  rw [List.countP_eq_length_filter]
  refine List.Perm.length_eq ((List.perm_ext_iff_of_nodup (nodup_allBytes.filter _) h).mpr fun b => ?_)
  simp [mem_allBytes]

/-- R88: all bytes but the eight opcodes select no kind (W1). -/
theorem countP_kindOf_isNone {op : OpCodes} (h : op.toList.Nodup) :
    allBytes.countP (fun b => (kindOf op b).isNone) = 248 := by
  have hillegal : allBytes.countP (fun b => (kindOf op b).isNone) = allBytes.countP (fun b => ¬ b ∈ op.toList) :=
    List.countP_congr fun b _ => by simp [kindOf_eq_none_iff]
  have hlegal : allBytes.countP (· ∈ op.toList) = 8 := countP_mem_allBytes h
  have hall := List.length_eq_countP_add_countP (l := allBytes) (· ∈ op.toList)
  have hlength : allBytes.length = 256 := by simp [allBytes]
  simp only [decide_eq_true_eq] at hall
  omega

theorem decode_of_illegal_opcode {cfg : Config} {w : InstrBytes} (h : ∀ k, w.get cfg.fo.op ≠ cfg.op.ofKind k) :
    decode cfg w = .error (.unrecognizedOpcode (w.get cfg.fo.op)) := by
  rw [decode, decodeKind_of_kindOf_eq_none (kindOf_eq_none_of_ne_ofKind h)]

end Sys2Proof
end

section
/-! PROOF. The step of a ready session (40_step_cycle.md R110-R118): one equation for each of its three courses (the
index overflows, the bytes are no instruction, the bytes decode), and from these how every step ends. -/

namespace Sys2Proof.Machine

/-- The state in which stages 3 to 5 run: i is incremented (R112). -/
def State.fetched (s : State) : State := s.setReg .i (s.reg .i + 1)

/-- Inside stage 5 the index of the running instruction is the old i (log entry 6). -/
@[simp] theorem State.fetched_currentIndex (s : State) : s.fetched.currentIndex = s.reg .i := by
  simp [State.currentIndex, State.fetched]

section
variable {s : State} (h : s.Ready)
include h

/-- R112: no increment of i goes past 255. -/
theorem step_overflow (hi : s.reg .i = 0xFF) : step s = .next (takeFault (.generic .ipOverflow) 0xFF s) := by
  rw [step_of_ready h, runStages, fetchDecode_overflow h.paramsWF hi, hi]
  rfl

/-- R114: bytes that do not decode fault at stage 4. -/
theorem step_decode_error (hi : s.reg .i ≠ 0xFF) {e : DecodeError} (hd : decode s.cfg s.nextBytes = .error e) :
    step s = .next (takeFault (.unrecognizedOpcode (s.nextBytes.get s.cfg.fo.op)) (s.reg .i) s.fetched) := by
  rw [step_of_ready h, runStages, fetchDecode_eq h.paramsWF hi, hd]
  rfl

/-- R115: the decoded instruction runs after the increment of i. -/
theorem step_decode_ok (hi : s.reg .i ≠ 0xFF) {i : Instr} (hd : decode s.cfg s.nextBytes = .ok i) :
    step s = exec i s.fetched := by
  rw [step_of_ready h, runStages, fetchDecode_eq h.paramsWF hi, hd]
  rfl

end

/-- How a step may end (R116, R117, R261): running, with IpOverflow in stage 2, or with a fault of a later stage, none
of which is AddressOutOfRange; every fault records the old i. -/
inductive StepEnd (s t : State) : Prop where
  | running (hstatus : t.status = .running)
  | overflow (hi : s.reg .i = 0xFF) (ht : t.reg .i = 0xFF)
      (hstatus : t.status = .faulted (.generic .ipOverflow) (s.reg .i))
  | later (f : FaultClass) (hf : (Stop.raised f).InStage5) (ht : t.reg .i = s.reg .i + 1)
      (hstatus : t.status = .faulted f (s.reg .i))

theorem step_end {s t : State} (hs : s.Ready) (h : step s = .next t) : StepEnd s t := by
  by_cases hi : s.reg .i = 0xFF
  · rw [step_overflow hs hi] at h
    cases h
    exact .overflow hi hi (by rw [hi]; rfl)
  rcases hd : decode s.cfg s.nextBytes with e | i
  · rw [step_decode_error hs hi hd] at h
    cases h
    exact .later (.unrecognizedOpcode _) trivial (State.reg_setReg_same ..) rfl
  · rw [step_decode_ok hs hi hd] at h
    rcases exec_ends (s := s.fetched) i hs.paramsWF h with hstatus | ⟨f, hstatus, ht, hf⟩
    · exact .running (hstatus.trans hs.running)
    · exact .later f hf (ht.trans (State.reg_setReg_same ..)) (by rw [hstatus, State.fetched_currentIndex])

/-- Settles O11: it holds, since neither IpOverflow nor a fault of a later stage is AddressOutOfRange. -/
theorem addressOutOfRangeUnreachable : Obligations.AddressOutOfRangeUnreachable := by
  unfold Obligations.AddressOutOfRangeUnreachable
  intro s t hs h a o hstatus
  cases step_end hs h with
  | running hrun => simp [hrun] at hstatus
  | overflow _ _ hover => simp [hover] at hstatus
  | later f hf _ hlater =>
    obtain ⟨rfl, -⟩ := Status.faulted.inj (hlater.symm.trans hstatus)
    exact hf

/-- Settles O12: it holds, since every fault of a step records the old i. -/
theorem stepEndsRunningOrRecordsItsIndex : Obligations.StepEndsRunningOrRecordsItsIndex := by
  unfold Obligations.StepEndsRunningOrRecordsItsIndex
  intro s t hs h
  cases step_end hs h with
  | running hrun => exact .inl hrun
  | overflow _ _ hover => exact .inr ⟨_, hover⟩
  | later f _ _ hlater => exact .inr ⟨f, hlater⟩

/-- Settles O13: it holds, since only stage 2 raises IpOverflow, and every later stage faults with i incremented. -/
theorem faultLeavesNextIndex : Obligations.FaultLeavesNextIndex := by
  unfold Obligations.FaultLeavesNextIndex
  intro s t f o hs h hstatus
  cases step_end hs h with
  | running hrun => simp [hrun] at hstatus
  | overflow hi ht hover =>
    obtain ⟨rfl, -⟩ := Status.faulted.inj (hover.symm.trans hstatus)
    exact ⟨fun _ => ⟨hi, ht⟩, fun hne => absurd rfl hne⟩
  | later f' hf ht hlater =>
    obtain ⟨rfl, -⟩ := Status.faulted.inj (hlater.symm.trans hstatus)
    refine ⟨?_, fun _ => ht⟩
    rintro rfl
    exact hf.elim

/-- An instruction that neither names i as its destination nor is a taken JMP keeps i (R118). -/
theorem exec_keeps_index {i : Instr} {s t : State} (hp : s.params.WF) (h : exec i s = .next t)
    (hd : ∀ v, i.destination = some v → s.regOf v ≠ some .i)
    (hjmp : ∀ flags dst, i = .jmp flags dst → flags ≠ 0 ∧ s.reg .f &&& flags = 0) : t.reg .i = s.reg .i := by
  cases i with
  | jmp flags dst =>
    have hnot : ¬ jumpTaken (s.reg .f) flags = true := by
      have := hjmp flags dst rfl
      simpa [jumpTaken_iff] using this
    rw [exec_jmp_of_not_taken hp dst hnot] at h
    cases h
    rfl
  | _ => exact exec_keepsReg _ hp.1 (by simp [Instr.implicitWrites]) hd h

/-- Settles O14: it holds, since the step increments i and its instruction then keeps i; at i = 255 no step ends
normally. -/
theorem straightLineAdvancesByOne : Obligations.StraightLineAdvancesByOne := by
  unfold Obligations.StraightLineAdvancesByOne
  intro s t i hs hdecode h hrun hd hjmp
  by_cases hi : s.reg .i = 0xFF
  · rw [step_overflow hs hi] at h
    cases h
    cases hrun
  · rw [step_decode_ok hs hi hdecode] at h
    have hf : s.fetched.reg .f = s.reg .f := State.reg_setReg_other hs.paramsWF.1 (by decide) _
    rw [exec_keeps_index (s := s.fetched) hs.paramsWF h hd (hf.symm ▸ hjmp)]
    exact State.reg_setReg_same ..

/-- Settles O6: it holds, by counting the bytes that are no opcode, and by stage 4 of the step for each of them. -/
theorem illegalOpcodesFault : Obligations.IllegalOpcodesFault := by
  unfold Obligations.IllegalOpcodesFault
  refine ⟨fun op hop => ⟨kindOf_ofKind hop, countP_kindOf_isNone hop⟩, fun s hs hi hillegal => ?_⟩
  exact step_decode_error hs hi (decode_of_illegal_opcode hillegal)

/-- Settles O7: it holds, since the increment of i changes neither the bytes fetched nor the configuration. -/
theorem stepRunsDecodedInstruction : Obligations.StepRunsDecodedInstruction := by
  unfold Obligations.StepRunsDecodedInstruction
  exact fun s i hs hi hd => step_decode_ok hs hi hd

/-- Settles O8: it holds, since stage 2 fails before it writes. -/
theorem indexOverflowEndsSession : Obligations.IndexOverflowEndsSession := by
  unfold Obligations.IndexOverflowEndsSession
  exact fun s hs hi => step_overflow hs hi

/-- Settles O9: it holds, since a step with a next state starts running. -/
theorem faultedSessionTakesNoStep : Obligations.FaultedSessionTakesNoStep := by
  unfold Obligations.FaultedSessionTakesNoStep
  intro s f o hstatus
  constructor
  · intro t h
    rw [(step_next h).1] at hstatus
    cases hstatus
  · intro hcfg hparams
    rw [step, if_neg (not_not.mpr hcfg), if_neg (not_not.mpr hparams), hstatus]

end Sys2Proof.Machine
end

section
/-! PROOF. The start of a session (70_reset_and_hazards.md R300, R301): the sessions that are refused, the bytes of the
buffer, and the reference session with a word placed in it. -/

namespace Sys2Proof.Machine

/-- Settles O10: it holds, since the start and the step both ask for W1 to W6, and the start for an image that fits. -/
theorem refusedSessions : Obligations.RefusedSessions := by
  unfold Obligations.RefusedSessions
  constructor
  · intro cfg hcfg
    refine ⟨fun params image fill script => if_neg fun h => hcfg h.1, fun s hs => if_pos fun hwf => hcfg (hs ▸ hwf)⟩
  · intro cfg params image fill script hlong
    exact if_neg fun ⟨_, _, hfits⟩ => Nat.not_lt.mpr hfits hlong

section
variable {image : List Byte} {fill : Nat → Byte} {memSize : Nat}

/-- An image that fits is filled up to exactly the buffer. -/
theorem length_startBytes (h : image.length ≤ memSize) : (startBytes image fill memSize).length = memSize := by
  simp [startBytes, h]

theorem read_startBytes_image {k : Nat} (h : k < image.length) :
    (Memory.ofBytes 0 (startBytes image fill memSize)).read k = image[k] := by
  simp [Memory.read_ofBytes, startBytes, List.getElem?_append_left, h]

theorem read_startBytes_fill {k : Nat} (hk : image.length ≤ k) (h : k < memSize) :
    (Memory.ofBytes 0 (startBytes image fill memSize)).read k = fill k := by
  have hrest : k - image.length < memSize - image.length := by omega
  simp [Memory.read_ofBytes, startBytes, List.getElem?_append_right, hk, hrest]

end

/-- Settles O21: it holds, by the bytes the start puts into the buffer; a register is the byte at its bank address. -/
theorem startLoadsImageThenFill : Obligations.StartLoadsImageThenFill := by
  unfold Obligations.StartLoadsImageThenFill
  intro cfg params image fill script hcfg hparams hfits
  refine ⟨_, if_pos ⟨hcfg, hparams, hfits⟩, ⟨hcfg, hparams, Memory.wf_ofBytes _ _, fun p hp => ?_⟩, rfl, rfl, rfl, rfl,
    rfl, fun k hk => read_startBytes_image hk, fun k hk hlt => read_startBytes_fill hk hlt, fun r => rfl,
    fun hwf r => ?_⟩
  · have := (Memory.ofBytes_above 0 _ p hp).2
    rwa [length_startBytes hfits, Nat.zero_add] at this
  · split
    · exact read_startBytes_image ‹_›
    · refine read_startBytes_fill (Nat.not_lt.mp ‹_›) ?_
      exact Nat.lt_of_lt_of_le (State.regAddress_bounds _ r).2 hwf.2

/-- Settles O16: it holds, since TCFG and the reference parameters are well-formed and the memory lists nothing. -/
theorem invariantHoldsAtReset : Obligations.InvariantHoldsAtReset := by
  unfold Obligations.InvariantHoldsAtReset
  obtain ⟨hcfg, -, hparams⟩ := Tests.test_tcfg_wellFormed
  exact ⟨⟨hcfg, hparams.1, Memory.wf_nil, by simp [State.reset]⟩, ⟨hcfg, hparams, rfl⟩⟩

/-- A buffer of zero bytes lists nothing (log entry 4). -/
theorem Memory.ofBytes_replicate_zero (a n : Nat) : Memory.ofBytes a (List.replicate n 0x00) = [] := by
  induction n generalizing a with
  | zero => rfl
  | succ n ih => exact (if_pos rfl).trans (ih (a + 1))

/-- Settles O22: it holds, since an empty image and FILL 0 leave a buffer of zero bytes. -/
theorem resetIsReferenceStart : Obligations.ResetIsReferenceStart := by
  unfold Obligations.ResetIsReferenceStart
  obtain ⟨hcfg, -, hparams⟩ := Tests.test_tcfg_wellFormed
  refine ⟨(if_pos ⟨hcfg, hparams.1, Nat.zero_le _⟩).trans ?_, fun r => rfl⟩
  have hbytes : startBytes [] (fun _ => 0x00) Params.reference.memSize =
      List.replicate Params.reference.memSize 0x00 := by simp [startBytes]
  rw [hbytes, Memory.ofBytes_replicate_zero]
  rfl

/-- Three bytes placed as an instruction are the bytes fetched at its index. -/
theorem instrBytesAt_placeInstr (s : State) (n : Byte) (w : InstrBytes) :
    instrBytesAt (s.placeInstr n w).mem (indexAddress n) = w := by
  simp [instrBytesAt, State.placeInstr, Memory.read_writeBytes]

/-- In the reset state the word is placed at index 0 (R301). -/
theorem reset_withFetchWord (nbits w : Nat) :
    State.reset.withFetchWord nbits w = State.reset.placeInstr 0x00 (tableBytes nbits w) := rfl

/-- A word placed at index 0 leaves i at 0, since the bank lies above it. -/
theorem reset_placeInstr_index (w : InstrBytes) : (State.reset.placeInstr 0x00 w).reg .i = 0x00 :=
  by
  have hbank := (State.reset.placeInstr 0x00 w).regAddress_bounds .i
  exact Memory.read_writeBytes_outside [] (.inr (Nat.le_trans (by decide : 3 ≤ 0x400) hbank.1))

/-- Settles O15: it holds, since the placed word is what the step fetches at index 0. -/
theorem placedWordRunsNext : Obligations.PlacedWordRunsNext := by
  unfold Obligations.PlacedWordRunsNext
  intro nbits w i h
  obtain ⟨-, hcfg, hparams, -⟩ := invariantHoldsAtReset
  have hi := reset_placeInstr_index (tableBytes nbits w)
  have hd : decode Config.tcfg (tableBytes nbits w) = .ok i := by
    unfold decodeTableWord at h
    split at h <;> simp_all
  have hready : (State.reset.placeInstr 0x00 (tableBytes nbits w)).Ready := ⟨hcfg, hparams, rfl⟩
  rw [reset_withFetchWord, step_decode_ok hready (by rw [hi]; decide)]
  · rw [State.fetched, hi]
    rfl
  · rw [State.nextBytes, hi]
    exact (congrArg (decode Config.tcfg) (instrBytesAt_placeInstr State.reset 0x00 _)).trans hd

end Sys2Proof.Machine
end

section
/-! PROOF. The buffer and the bank (10_state.md R25, R26; 20_memory.md R54, R59, R61; 00_scope.md R14). -/

namespace Sys2Proof.Machine

/-- Settles O23: it holds, by the laws of the memory list. -/
theorem byteHoldsLastWrite : Obligations.ByteHoldsLastWrite := by
  unfold Obligations.ByteHoldsLastWrite
  exact fun m a b v hm => ⟨Memory.wf_write hm a v, m.read_write_same a v, fun hne => m.read_write_other v hne⟩

theorem checkRange_out {s : State} {addr n : Nat} (h : s.params.memSize < addr + n) :
    checkRange addr n s = .error (.raised (.addressOutOfRange addr)) s :=
  if_neg (Nat.not_le.mpr h)

/-- Settles O25: it holds, since every access checks its range before anything else. -/
theorem outOfRangeAccessWritesNothing : Obligations.OutOfRangeAccessWritesNothing := by
  unfold Obligations.OutOfRangeAccessWritesNothing
  intro s addr n bytes r v
  refine ⟨fun hout => ?_, fun hin => ?_, fun hout => ?_, fun hin => ?_, fun hout => ⟨?_, ?_⟩⟩
  · exact Act.bind_error (checkRange_out hout)
  · rw [memRead, Act.bind_ok (checkRange_eq hin), look_eq]
  · exact Act.bind_error (checkRange_out hout)
  · rw [memWrite, Act.bind_ok (checkRange_eq hin), update_eq]
  · exact if_neg (Nat.not_le.mpr (Nat.lt_succ_of_le hout))
  · exact if_neg (Nat.not_le.mpr (Nat.lt_succ_of_le hout))

/-- Settles O26: it holds, since REG_ADDR is injective into the bank, which the RAM window does not meet. -/
theorem registersAreSeparateBankBytes : Obligations.RegistersAreSeparateBankBytes := by
  unfold Obligations.RegistersAreSeparateBankBytes
  intro s r q v o hp
  have hbank := s.regAddress_bounds r
  exact ⟨hbank.1, Nat.le_of_lt_succ hbank.2, rfl, writeReg_eq hp r v, s.reg_setReg_same r v,
    fun hq => State.reg_setReg_other hp.1 hq v, s.ram_setReg r v o⟩

end Sys2Proof.Machine
end

section
/-! PROOF. Register identifiers (10_state.md R24): which byte names which register. -/

namespace Sys2Proof.Machine

/-- The identifier of a register (R20). -/
def idOfReg (id : RegIds) : Reg → Byte
  | .a => id.a
  | .b => id.b
  | .c => id.c
  | .d => id.d
  | .s => id.s
  | .i => id.i
  | .f => id.f

/-- R24: each register's identifier names it (W2). -/
theorem regOfId_idOfReg {id : RegIds} (h : id.toList.Nodup) (r : Reg) : regOfId id (idOfReg id r) = some r := by
  simp only [RegIds.toList, List.nodup_cons, List.mem_cons, List.not_mem_nil, or_false, not_or] at h
  cases r <;> simp only [idOfReg, regOfId] <;> simp [h, eq_comm]

theorem regOfId_eq_none {id : RegIds} {v : Byte} (h : v ∉ id.toList) : regOfId id v = none := by
  simp only [RegIds.toList, List.mem_cons, List.not_mem_nil, or_false, not_or] at h
  simp [regOfId, h]

/-- Settles O42: it holds, by W2 for the seven identifiers and by W3, W4 for the sentinel, which is none of them. -/
theorem identifiersNameTheirRegisters : Obligations.IdentifiersNameTheirRegisters := by
  unfold Obligations.IdentifiersNameTheirRegisters
  rintro s ⟨-, hdistinct, hnonzero, hnone, -, -⟩
  have hnames : ∀ r, s.regOf (idOfReg s.cfg.id r) = some r := regOfId_idOfReg hdistinct
  exact ⟨hnames .a, hnames .b, hnames .c, hnames .d, hnames .s, hnames .i, hnames .f,
    regOfId_eq_none fun hmem => hnonzero _ hmem hnone, fun v hv => regOfId_eq_none hv⟩

end Sys2Proof.Machine
end

section
/-! PROOF. IMM, ADD, STM, LDM and CMP (41_imm_add.md, 42_stack_memory.md, 43_compare_branch.md): what each does with
operands that name registers, and its fault for the first operand resolved that names none (D23). -/

namespace Sys2Proof.Machine

section
variable {s : State} {l r : Byte} {rl rr : Reg}

/-! ## Operands that name registers -/

/-- R140. -/
theorem exec_imm (hp : s.params.WF) (hl : s.regOf l = some rl) (val : Byte) :
    exec (.imm l val) s = .next (s.setReg rl val) :=
  runInstr_ok (writeId_some hp hl val)

/-- R142. -/
theorem exec_add (hp : s.params.WF) (hl : s.regOf l = some rl) (hr : s.regOf r = some rr) :
    exec (.add l r) s = .next (s.setReg rl (s.reg rl + s.reg rr)) := by
  refine runInstr_ok ?_
  rw [Act.bind_ok (resolve_some hl), Act.bind_ok (readId_some hp hr), Act.bind_ok (readReg_eq hp rl)]
  exact writeReg_eq hp rl _

/-- R166. -/
theorem exec_stm (hp : s.params.WF) (hl : s.regOf l = some rl) (hr : s.regOf r = some rr) :
    exec (.stm l r) s = .next (s.setRam (s.reg rl) (s.reg rr)) := by
  refine runInstr_ok ?_
  rw [Act.bind_ok (readId_some hp hl), Act.bind_ok (readId_some hp hr)]
  exact writeRam_eq hp _ _

/-- R168. -/
theorem exec_ldm (hp : s.params.WF) (hl : s.regOf l = some rl) (hr : s.regOf r = some rr) :
    exec (.ldm l r) s = .next (s.setReg rl (s.ram (s.reg rr))) := by
  refine runInstr_ok ?_
  rw [Act.bind_ok (readId_some hp hr), Act.bind_ok (readRam_eq hp _)]
  exact writeId_some hp hl _

/-- R190. -/
theorem exec_cmp (hp : s.params.WF) (hl : s.regOf l = some rl) (hr : s.regOf r = some rr) :
    exec (.cmp l r) s = .next (s.setReg .f (cmpFlags s.cfg.masks (s.reg rl) (s.reg rr))) := by
  refine runInstr_ok ?_
  rw [Act.bind_ok (readId_some hp hl), Act.bind_ok (readId_some hp hr)]
  exact writeReg_eq hp .f _

/-! ## Operands that name no register -/

/-- The state in which an operand byte was found to name no register (R24). -/
def State.unknownOperand (s : State) (v : Byte) : State := takeFault (.unknownRegister v) (s.reg .i - 1) s

theorem exec_imm_unknown (hl : s.regOf l = none) (val : Byte) : exec (.imm l val) s = .next (s.unknownOperand l) :=
  runInstr_raised (writeId_none hl val)

theorem exec_add_unknown_left (hl : s.regOf l = none) (r : Byte) : exec (.add l r) s = .next (s.unknownOperand l) :=
  runInstr_raised (Act.bind_error (resolve_none hl))

theorem exec_add_unknown_right (hl : s.regOf l = some rl) (hr : s.regOf r = none) :
    exec (.add l r) s = .next (s.unknownOperand r) :=
  runInstr_raised ((Act.bind_ok (resolve_some hl)).trans (Act.bind_error (readId_none hr)))

theorem exec_stm_unknown_left (hl : s.regOf l = none) (r : Byte) : exec (.stm l r) s = .next (s.unknownOperand l) :=
  runInstr_raised (Act.bind_error (readId_none hl))

theorem exec_stm_unknown_right (hp : s.params.WF) (hl : s.regOf l = some rl) (hr : s.regOf r = none) :
    exec (.stm l r) s = .next (s.unknownOperand r) :=
  runInstr_raised ((Act.bind_ok (readId_some hp hl)).trans (Act.bind_error (readId_none hr)))

theorem exec_ldm_unknown_right (l : Byte) (hr : s.regOf r = none) : exec (.ldm l r) s = .next (s.unknownOperand r) :=
  runInstr_raised (Act.bind_error (readId_none hr))

theorem exec_ldm_unknown_left (hp : s.params.WF) (hl : s.regOf l = none) (hr : s.regOf r = some rr) :
    exec (.ldm l r) s = .next (s.unknownOperand l) := by
  refine runInstr_raised ?_
  rw [Act.bind_ok (readId_some hp hr), Act.bind_ok (readRam_eq hp _)]
  exact writeId_none hl _

theorem exec_cmp_unknown_left (hl : s.regOf l = none) (r : Byte) : exec (.cmp l r) s = .next (s.unknownOperand l) :=
  runInstr_raised (Act.bind_error (readId_none hl))

theorem exec_cmp_unknown_right (hp : s.params.WF) (hl : s.regOf l = some rl) (hr : s.regOf r = none) :
    exec (.cmp l r) s = .next (s.unknownOperand r) :=
  runInstr_raised ((Act.bind_ok (readId_some hp hl)).trans (Act.bind_error (readId_none hr)))

/-- R195: only a JMP that is taken resolves its operand (D8). -/
theorem exec_jmp_unknown (hp : s.params.WF) (htaken : jumpTaken (s.reg .f) l = true) (hr : s.regOf r = none) :
    exec (.jmp l r) s = .next (s.unknownOperand r) := by
  refine runInstr_raised ?_
  rw [Act.bind_ok (readReg_eq hp .f), if_pos htaken]
  exact Act.bind_error (readId_none hr)

end

/-! ## The flag byte -/

/-- R190, R191: the flag byte by the values as numbers. -/
theorem cmpFlags_eq (m : Masks) (lv rv : Byte) :
    cmpFlags m lv rv = (if lv.toNat = 0 ∧ rv.toNat = 0 then m.zero else 0) |||
      (if lv.toNat < rv.toNat then m.smaller else 0) ||| (if lv.toNat > rv.toNat then m.bigger else 0) |||
      (if lv.toNat = rv.toNat then m.equal else 0) ||| (if lv.toNat ≠ rv.toNat then m.notEqual else 0) := by
  simp [cmpFlags, maskIf, BitVec.ult, ← BitVec.toNat_inj]

/-! ## The obligations -/

/-- Settles O27: it holds, by `exec_imm`. -/
theorem immLoadsLiteral : Obligations.ImmLoadsLiteral := by
  unfold Obligations.ImmLoadsLiteral
  exact fun s dst val rd hp hdst => exec_imm hp hdst val

/-- Settles O28: it holds, since byte addition is addition of the values modulo 256. -/
theorem addSumsModulo256 : Obligations.AddSumsModulo256 := by
  unfold Obligations.AddSumsModulo256
  intro s dst src rd rs hp hdst hsrc
  have hsum : s.reg rd + s.reg rs = BitVec.ofNat 8 (((s.reg rd).toNat + (s.reg rs).toNat) % 256) :=
    BitVec.eq_of_toNat_eq (by simp [BitVec.toNat_add])
  rw [exec_add hp hdst hsrc, hsum]

/-- Settles O35: it holds, since the address of a RAM offset is the offset above 0x300. -/
theorem stmStoresThroughRegister : Obligations.StmStoresThroughRegister := by
  unfold Obligations.StmStoresThroughRegister
  exact fun s dst src rd rs hp hdst hsrc => exec_stm hp hdst hsrc

/-- Settles O36: it holds, since the address of a RAM offset is the offset above 0x300. -/
theorem ldmLoadsThroughRegister : Obligations.LdmLoadsThroughRegister := by
  unfold Obligations.LdmLoadsThroughRegister
  exact fun s dst src rd rs hp hdst hsrc => exec_ldm hp hdst hsrc

/-- Settles O37: it holds, by the flag byte as a function of the values as numbers. -/
theorem cmpWritesOrOfHoldingMasks : Obligations.CmpWritesOrOfHoldingMasks := by
  unfold Obligations.CmpWritesOrOfHoldingMasks
  intro s left right rl rr hp hleft hright
  rw [exec_cmp hp hleft hright, cmpFlags_eq]

/-- Settles O38: it holds, since the order of the two values decides every condition but that of `zero`. -/
theorem cmpFlagByteIsOneOfFour : Obligations.CmpFlagByteIsOneOfFour := by
  unfold Obligations.CmpFlagByteIsOneOfFour
  intro m lv rv
  rw [cmpFlags_eq]
  refine ⟨?bothZero, ?equal, fun hlt => ?smaller, fun hgt => ?bigger⟩
  case bothZero =>
    rintro rfl rfl
    simp
  case equal =>
    rintro rfl hne
    have hne : lv.toNat ≠ 0 := fun h0 => hne (BitVec.eq_of_toNat_eq h0)
    simp [hne]
  case smaller =>
    have hzero : ¬ (lv.toNat = 0 ∧ rv.toNat = 0) := by omega
    simp [hzero, hlt, Nat.ne_of_lt hlt, Nat.not_lt.mpr hlt.le]
  case bigger =>
    have hzero : ¬ (lv.toNat = 0 ∧ rv.toNat = 0) := by omega
    simp [hzero, hgt, Nat.ne_of_gt hgt, Nat.not_lt.mpr hgt.le]

/-- Settles O40: it holds, since the evaluator then answers no. -/
theorem jmpNotTakenHasNoEffect : Obligations.JmpNotTakenHasNoEffect := by
  unfold Obligations.JmpNotTakenHasNoEffect
  intro s flags dst hp hflags hand
  refine exec_jmp_of_not_taken hp dst ?_
  rw [jumpTaken_iff]
  exact not_or.mpr ⟨hflags, not_not.mpr hand⟩

/-- Settles O41: it holds, by the fault of each form. -/
theorem unknownOperandFaults : Obligations.UnknownOperandFaults := by
  unfold Obligations.UnknownOperandFaults
  intro s l r hp
  refine ⟨fun hl => exec_imm_unknown hl r, fun hl => exec_add_unknown_left hl r, fun hl hr => ?addRight,
    fun hl => exec_stm_unknown_left hl r, fun hl hr => ?stmRight, fun hr => exec_ldm_unknown_right l hr,
    fun hr hl => ?ldmLeft, fun hl => exec_cmp_unknown_left hl r, fun hl hr => ?cmpRight,
    fun htaken hr => exec_jmp_unknown hp ((jumpTaken_iff _ _).mpr htaken) hr⟩
  case ldmLeft =>
    obtain ⟨rr, hr⟩ := Option.ne_none_iff_exists'.mp hr
    exact exec_ldm_unknown_left hp hl hr
  all_goals obtain ⟨rl, hl⟩ := Option.ne_none_iff_exists'.mp hl
  case addRight => exact exec_add_unknown_right hl hr
  case stmRight => exact exec_stm_unknown_right hp hl hr
  case cmpRight => exact exec_cmp_unknown_right hp hl hr

end Sys2Proof.Machine
end

section
/-! PROOF. STK (42_stack_memory.md R160-R165): its two halves as states, what they leave in the registers and on the
stack, and the instruction's forms from them. -/

namespace Sys2Proof.Machine

/-- The state after a push of register `q` (R160): s is incremented first, and `q` is read after that (D9). -/
def State.pushed (s : State) (q : Reg) : State :=
  (s.setReg .s (s.reg .s + 1)).setRam (s.reg .s + 1) ((s.setReg .s (s.reg .s + 1)).reg q)

/-- The state after a pop into register `r` (R160): s is decremented last (D9). -/
def State.popped (s : State) (r : Reg) : State :=
  (s.setReg r (s.ram (s.reg .s))).setReg .s ((s.setReg r (s.ram (s.reg .s))).reg .s - 1)

section
variable {s : State}

/-! ## The halves -/

@[simp] theorem State.pushed_cfg (q : Reg) : (s.pushed q).cfg = s.cfg := rfl
@[simp] theorem State.pushed_params (q : Reg) : (s.pushed q).params = s.params := rfl
@[simp] theorem State.pushed_status (q : Reg) : (s.pushed q).status = s.status := rfl
@[simp] theorem State.pushed_regAddress (q r : Reg) : (s.pushed q).regAddress r = s.regAddress r := rfl
@[simp] theorem State.pushed_regOf (q : Reg) (v : Byte) : (s.pushed q).regOf v = s.regOf v := rfl
@[simp] theorem State.popped_regAddress (q r : Reg) : (s.popped q).regAddress r = s.regAddress r := rfl
@[simp] theorem State.popped_status (r : Reg) : (s.popped r).status = s.status := rfl

@[simp] theorem State.pushed_reg_s (q : Reg) : (s.pushed q).reg .s = s.reg .s + 1 := by simp [State.pushed]

/-- A push leaves every register but s. -/
theorem State.pushed_reg_other (hl : s.params.Launchable) (q : Reg) {r : Reg} (hr : r ≠ .s) :
    (s.pushed q).reg r = s.reg r := by
  rw [State.pushed, State.reg_setRam, State.reg_setReg_other hl hr]

@[simp] theorem State.pushed_top_s : (s.pushed .s).ram (s.reg .s + 1) = s.reg .s + 1 := by simp [State.pushed]

/-- A push stores the value of a register other than s. -/
theorem State.pushed_top_other (hl : s.params.Launchable) {q : Reg} (hq : q ≠ .s) :
    (s.pushed q).ram (s.reg .s + 1) = s.reg q := by
  rw [State.pushed, State.ram_setRam_same, State.reg_setReg_other hl hq]

@[simp] theorem State.popped_ram (r : Reg) (o : Byte) : (s.popped r).ram o = s.ram o := by simp [State.popped]

@[simp] theorem State.popped_s_reg_s : (s.popped .s).reg .s = s.ram (s.reg .s) - 1 := by simp [State.popped]

theorem State.popped_reg_s (hl : s.params.Launchable) {r : Reg} (hr : r ≠ .s) :
    (s.popped r).reg .s = s.reg .s - 1 := by
  rw [State.popped, State.reg_setReg_same, State.reg_setReg_other hl hr.symm]

theorem State.popped_reg_same (hl : s.params.Launchable) {r : Reg} (hr : r ≠ .s) :
    (s.popped r).reg r = s.ram (s.reg .s) := by
  rw [State.popped, State.reg_setReg_other (s := s.setReg r _) hl hr, State.reg_setReg_same]

/-- A push writes s's byte and the stack byte, and nothing else. -/
theorem State.pushed_mem_read (q : Reg) {a : Nat} (hs : a ≠ s.regAddress .s) (htop : a ≠ ramAddress (s.reg .s + 1)) :
    (s.pushed q).mem.read a = s.mem.read a :=
  (Memory.read_write_other _ _ htop).trans (Memory.read_write_other _ _ hs)

/-- A pop writes s's byte and the popped register's, and nothing else. -/
theorem State.popped_mem_read (r : Reg) {a : Nat} (hs : a ≠ s.regAddress .s) (hr : a ≠ s.regAddress r) :
    (s.popped r).mem.read a = s.mem.read a :=
  (Memory.read_write_other _ _ hs).trans (Memory.read_write_other _ _ hr)

/-! ## The forms -/

variable (hp : s.params.WF) {pop push : Byte} {dp dq : Reg}
include hp

theorem exec_stk_push (h0 : push ≠ 0x00) (h : s.regOf push = some dq) :
    exec (.stk 0x00 push) s = .next (s.pushed dq) :=
  runInstr_ok ((Act.bind_ok (stkPush_some hp h0 h)).trans (stkPop_skipped _))

theorem exec_stk_pop (h0 : pop ≠ 0x00) (h : s.regOf pop = some dp) :
    exec (.stk pop 0x00) s = .next (s.popped dp) :=
  runInstr_ok ((Act.bind_ok (stkPush_skipped s)).trans (stkPop_some hp h0 h))

theorem exec_stk_push_pop (h0 : push ≠ 0x00) (h : s.regOf push = some dq) (h0' : pop ≠ 0x00)
    (h' : s.regOf pop = some dp) : exec (.stk pop push) s = .next ((s.pushed dq).popped dp) :=
  runInstr_ok ((Act.bind_ok (stkPush_some hp h0 h)).trans (stkPop_some (s := s.pushed dq) hp h0' h'))

end

/-- Settles O29: it holds, by the forms of the instruction. -/
theorem stkPushesThenPops : Obligations.StkPushesThenPops := by
  unfold Obligations.StkPushesThenPops
  intro s pop push dp dq hp
  simp only [State.reg_setReg_same]
  refine ⟨?_, fun h0 h => exec_stk_push hp h0 h, fun h0 h => exec_stk_pop hp h0 h,
    fun h0 h h0' h' => exec_stk_push_pop hp h0 h h0' h'⟩
  exact runInstr_ok ((Act.bind_ok (stkPush_skipped s)).trans (stkPop_skipped s))

/-- Settles O30: it holds, since the moves of s are modulo 256. -/
theorem stackPointerWraps : Obligations.StackPointerWraps := by
  unfold Obligations.StackPointerWraps
  intro s v rd hp h0 hv hrd
  refine ⟨fun hs => ⟨_, exec_stk_push hp h0 hv, rfl, ?_, ?_⟩, fun hs => ⟨_, exec_stk_pop hp h0 hv, rfl, ?_, ?_⟩⟩
  · rw [State.pushed_reg_s, hs]
    rfl
  · have htop := State.pushed_top_other hp.1 hrd
    rwa [hs] at htop
  · rw [State.popped_reg_s hp.1 hrd, hs]
    rfl
  · rw [State.popped_reg_same hp.1 hrd, hs]
    rfl

/-- Settles O31: it holds, since a push reads its register after the increment, and a pop decrements s after it wrote
its register. -/
theorem stackPointerAndIndexAsOperands : Obligations.StackPointerAndIndexAsOperands := by
  unfold Obligations.StackPointerAndIndexAsOperands
  intro s v hp h0
  have hi : Reg.i ≠ .s := by decide
  refine ⟨fun hv => ⟨?pushS, ?popS⟩, fun hv => ⟨?pushI, ?popI⟩⟩
  case pushS => exact ⟨_, exec_stk_push hp h0 hv, State.pushed_reg_s _, State.pushed_top_s⟩
  case popS => exact ⟨_, exec_stk_pop hp h0 hv, State.popped_s_reg_s⟩
  case pushI => exact ⟨_, exec_stk_push hp h0 hv, State.pushed_reg_s _, State.pushed_top_other hp.1 hi⟩
  case popI => exact ⟨_, exec_stk_pop hp h0 hv, State.popped_reg_same hp.1 hi, State.popped_reg_s hp.1 hi⟩

/-- A push and a pop into a register other than s leave s as it was. -/
theorem State.popped_pushed_reg_s {s : State} (hl : s.params.Launchable) (q : Reg) {r : Reg} (hr : r ≠ .s) :
    ((s.pushed q).popped r).reg .s = s.reg .s := by
  rw [State.popped_reg_s (s := s.pushed q) hl hr, State.pushed_reg_s, BitVec.add_sub_cancel]

/-- Settles O32: it holds, since the pop reads the byte that the push stored and takes s back. -/
theorem stkBothHalvesCopyARegister : Obligations.StkBothHalvesCopyARegister := by
  unfold Obligations.StkBothHalvesCopyARegister
  intro s x y hp hx0 hy0
  refine ⟨fun dx dy hx hy hdx hdy => ⟨_, exec_stk_push_pop hp hy0 hy hx0 hx, ?copied,
    State.popped_pushed_reg_s hp.1 dy hdx, ?top, fun a hax hatop => ?otherBytes⟩,
    fun hx hy => ⟨_, exec_stk_push_pop hp hy0 hy hx0 hx, ?sKept, ?sTop⟩⟩
  case copied =>
    rw [State.popped_reg_same (s := s.pushed dy) hp.1 hdx, State.pushed_reg_s, State.pushed_top_other hp.1 hdy]
  case top => rw [State.popped_ram, State.pushed_top_other hp.1 hdy]
  case otherBytes =>
    by_cases has : a = s.regAddress .s
    · have hs := State.popped_pushed_reg_s hp.1 dy hdx
      rwa [State.reg, State.popped_regAddress, State.pushed_regAddress, ← has, State.reg, ← has] at hs
    · exact (State.popped_mem_read (s := s.pushed dy) dx has hax).trans (State.pushed_mem_read dy has hatop)
  case sKept => rw [State.popped_s_reg_s, State.pushed_reg_s, State.pushed_top_s, BitVec.add_sub_cancel]
  case sTop => rw [State.popped_ram, State.pushed_top_s]

/-- Settles O33: it holds, since the later pop reads the same stack byte at the same s. -/
theorem stackRoundTrip : Obligations.StackRoundTrip := by
  unfold Obligations.StackRoundTrip
  intro s x y dx dy hp hx0 hy0 hx hy hdx hdy
  refine ⟨_, exec_stk_push hp hx0 hx, fun t hcfg hparams hs htop => ?_⟩
  have hpt : t.params.WF := hparams ▸ hp
  have hyt : t.regOf y = some dy := by
    rw [State.regOf, hcfg]
    exact hy
  rw [State.pushed_reg_s] at hs htop
  refine ⟨_, exec_stk_pop hpt hy0 hyt, ?_, ?_⟩
  · rw [State.popped_reg_same hpt.1 hdy, hs, htop, State.pushed_top_other hp.1 hdx]
  · rw [State.popped_reg_s hpt.1 hdy, hs, BitVec.add_sub_cancel]

/-- Settles O34: it holds, by the stops of the two halves. -/
theorem stkFaultKeepsWhatWasDone : Obligations.StkFaultKeepsWhatWasDone := by
  unfold Obligations.StkFaultKeepsWhatWasDone
  intro s pop push dq hp
  refine ⟨fun h0 h => ?badPush, fun h0 h h0' h' => ?badPopAfterPush, fun h0 h => ?badPop⟩
  case badPush => exact runInstr_raised (Act.bind_error (stkPush_none hp h0 h))
  case badPopAfterPush =>
    exact runInstr_raised ((Act.bind_ok (stkPush_some hp h0 h)).trans (stkPop_none (s := s.pushed dq) hp h0' h'))
  case badPop => exact runInstr_raised ((Act.bind_ok (stkPush_skipped s)).trans (stkPop_none hp h0 h))

end Sys2Proof.Machine
end

section
/-! PROOF. The HOST port (44_sys.md R220, R230) and the string scan of SYS open (20_memory.md R55). -/

namespace Sys2Proof.Machine

/-- R55: a scan that finds no zero byte up to the end of the window fails there. -/
theorem readString_of_unterminated {s : State} (hp : s.params.WF) {off : Byte} (h : s.Unterminated off) :
    readString off s = .error (.raised (.generic (.unterminatedString off))) s := by
  have hoff := off.isLt
  exact readStringFrom_unterminated hp off (.inr (by omega)) fun k hk => h k (by omega)

/-- R55: the least offset of a zero byte, where there is one, ends the string. -/
theorem stringAt_or_unterminated (s : State) (off : Byte) : (∃ n, s.StringAt off n) ∨ s.Unterminated off := by
  by_cases hzero : ∃ n, off.toNat + n ≤ 255 ∧ s.mem.read (0x300 + off.toNat + n) = 0x00
  · obtain ⟨hfits, hread⟩ := Nat.find_spec hzero
    exact .inl ⟨Nat.find hzero, hfits, fun k hk hk0 => Nat.find_min hzero hk ⟨by omega, hk0⟩, hread⟩
  · exact .inr fun k hk hk0 => hzero ⟨k, hk, hk0⟩

/-- Settles O45: it holds, by the two ends of the scan, one of which every window has. -/
theorem readStringStopsAtZero : Obligations.ReadStringStopsAtZero := by
  unfold Obligations.ReadStringStopsAtZero
  exact fun s off hp => ⟨fun _ h => readString_of_stringAt hp h, readString_of_unterminated hp,
    stringAt_or_unterminated s off⟩

/-- A host whose script says so answers the next request with `a`, whatever it is. -/
theorem hostAnswerTo_scripted (s : State) (a : HostAnswer) (req : HostRequest) :
    State.hostAnswerTo { s with hostScript := [.answer a] } req = some a := rfl

/-- R220: a count answered is at most the bytes sent. -/
theorem hostWrite_bound {fd : Byte} {bytes : List Byte} {s t : State} {cnt : Nat}
    (h : hostWrite fd bytes s = .ok (some cnt) t) : cnt ≤ bytes.length := by
  rcases ha : s.hostAnswerTo (.writeReq fd.toNat bytes) with _ | ⟨_ | ⟨num, data⟩⟩
  · rw [hostWrite_stalled ha] at h
    cases h
  · rw [hostWrite_answered ha] at h
    cases h
  · rw [hostWrite_answered ha] at h
    cases h
    exact Nat.min_le_right _ _

/-- R220: data answered is at most the bytes asked for. -/
theorem hostRead_bound {fd : Byte} {n : Nat} {s t : State} {data : List Byte}
    (h : hostRead fd n s = .ok (some data) t) : data.length ≤ n := by
  rcases ha : s.hostAnswerTo (.readReq fd.toNat n) with _ | ⟨_ | ⟨num, bytes⟩⟩
  · rw [hostRead_stalled ha] at h
    cases h
  · rw [hostRead_answered ha] at h
    cases h
  · rw [hostRead_answered ha] at h
    cases h
    exact List.length_take_le _ _

/-- Settles O46: it holds; an answer within the bounds is what a host gives whose script says it. -/
theorem hostAnswersKeepTheirBounds : Obligations.HostAnswersKeepTheirBounds := by
  unfold Obligations.HostAnswersKeepTheirBounds
  refine ⟨fun fd bytes s cnt t h => hostWrite_bound h, fun fd n s data t h => hostRead_bound h,
    fun fd bytes s res hres => ?write, fun fd n s res hres => ?read, fun path flags mode s res => ?opened⟩
  case write =>
    rcases res with _ | cnt
    · exact ⟨_, _, hostWrite_answered (hostAnswerTo_scripted s .err _)⟩
    · have hcount : HostAnswer.asCount bytes.length (.ok cnt []) = some cnt :=
        congrArg some (Nat.min_eq_left (hres cnt rfl))
      exact ⟨_, _, hcount ▸ hostWrite_answered (hostAnswerTo_scripted s (.ok cnt []) _)⟩
  case read =>
    rcases res with _ | data
    · exact ⟨_, _, hostRead_answered (hostAnswerTo_scripted s .err _)⟩
    · have hdata : HostAnswer.asData n (.ok 0 data) = some data :=
        congrArg some (List.take_of_length_le (hres data rfl))
      exact ⟨_, _, hdata ▸ hostRead_answered (hostAnswerTo_scripted s (.ok 0 data) _)⟩
  case opened =>
    rcases res with _ | desc
    · exact ⟨_, _, hostOpen_answered (hostAnswerTo_scripted s .err _)⟩
    · exact ⟨_, _, hostOpen_answered (hostAnswerTo_scripted s (.ok desc []) _)⟩

/-- Settles O47: it holds, since a call either is answered, which `afterHostCall` describes, or stalls. -/
theorem hostNeverWritesTheBuffer : Obligations.HostNeverWritesTheBuffer := by
  unfold Obligations.HostNeverWritesTheBuffer
  intro req s t a h
  rcases ha : s.hostAnswerTo req with _ | b
  · rw [hostCall_none ha] at h
    cases h
  · rw [hostCall_some ha] at h
    cases h
    exact ⟨rfl, rfl, rfl, rfl, rfl⟩

end Sys2Proof.Machine
end

section
/-! PROOF. The three syscalls (44_sys.md R221-R234): the dispatch, what is stored after each answer of the host, and the
faults on the way. -/

namespace Sys2Proof.Machine

/-! ## The dispatch -/

section
variable {s : State} {num : Byte} (dst : Byte)

theorem exec_sys_write (h : num = s.cfg.sys.writeNum) : exec (.sys num dst) s = exec (.sysWrite dst) s :=
  congrArg (settle _) (if_pos h)

theorem exec_sys_read (hw : num ≠ s.cfg.sys.writeNum) (h : num = s.cfg.sys.readNum) :
    exec (.sys num dst) s = exec (.sysRead dst) s :=
  congrArg (settle _) ((if_neg hw).trans (if_pos h))

theorem exec_sys_open (hw : num ≠ s.cfg.sys.writeNum) (hr : num ≠ s.cfg.sys.readNum) (h : num = s.cfg.sys.openNum) :
    exec (.sys num dst) s = exec (.sysOpen dst) s :=
  congrArg (settle _) ((if_neg hw).trans ((if_neg hr).trans (if_pos h)))

theorem exec_sys_unknown (h : num ∉ s.cfg.sys.toList) :
    exec (.sys num dst) s = .next (takeFault (.unrecognizedSyscall num) (s.reg .i - 1) s) := by
  simp only [SysNums.toList, List.mem_cons, List.not_mem_nil, or_false, not_or] at h
  obtain ⟨hopen, hread, hwrite⟩ := h
  exact runInstr_raised ((if_neg hwrite).trans ((if_neg hread).trans (if_neg hopen)))

/-- W6: the numbers of read and open are not taken by a test before theirs. -/
theorem sysNums_distinct {n : SysNums} (h : n.toList.Nodup) :
    n.readNum ≠ n.writeNum ∧ n.openNum ≠ n.writeNum ∧ n.openNum ≠ n.readNum := by
  simp only [SysNums.toList, List.nodup_cons, List.mem_cons, List.not_mem_nil, or_false, not_or] at h
  obtain ⟨⟨hopenRead, hopenWrite⟩, hreadWrite, -⟩ := h
  exact ⟨hreadWrite, hopenWrite, hopenRead⟩

end

/-- Settles O43: it holds, by the dispatch, whose tests W6 makes independent of their order. -/
theorem sysDispatchesOnNumber : Obligations.SysDispatchesOnNumber := by
  unfold Obligations.SysDispatchesOnNumber
  intro s num dst hdistinct
  obtain ⟨hreadWrite, hopenWrite, hopenRead⟩ := sysNums_distinct hdistinct
  exact ⟨exec_sys_write dst rfl, exec_sys_read dst hreadWrite rfl, exec_sys_open dst hopenWrite hopenRead rfl,
    exec_sys_unknown dst⟩

/-! ## After the host's answer -/

/-- R232: a count is narrowed modulo 256. -/
theorem narrowCount_eq_mod (n : Nat) : narrowCount n = BitVec.ofNat 8 (n % 256) :=
  BitVec.eq_of_toNat_eq (by simp [narrowCount])

section
variable {s : State} (hp : s.params.WF) (dst : Byte) {num : Nat} {data : List Byte}
include hp

/-- R223: a count answered to SYS write goes to dst. -/
theorem sysWriteAct_ok (h : s.hostAnswerTo s.writeRequest = some (.ok num data)) :
    sysWriteAct dst s =
      writeId dst (narrowCount (min num (clamp (s.reg .b) (s.reg .c)))) (s.afterHostCall s.writeRequest) :=
  sysWriteAct_answered hp dst h

/-- R226: data answered to SYS read goes to RAM, and then its count to dst. -/
theorem sysReadAct_ok (h : s.hostAnswerTo s.readRequest = some (.ok num data)) :
    sysReadAct dst s = storeReadCount dst (data.take (clamp (s.reg .b) (s.reg .c))).length
      ((s.afterHostCall s.readRequest).withRamBytes (s.reg .b) (data.take (clamp (s.reg .b) (s.reg .c)))) := by
  have hfits : (s.reg .b).toNat + (data.take (clamp (s.reg .b) (s.reg .c))).length ≤ 256 := by
    have := clamp_le (s.reg .b) (s.reg .c)
    have := List.length_take_le (clamp (s.reg .b) (s.reg .c)) data
    omega
  have hwrite := writeRamSlice_eq (s := s.afterHostCall s.readRequest) hp hfits
  exact (sysReadAct_answered hp dst h).trans (Act.bind_ok hwrite)

/-- R228: a descriptor answered to SYS open goes to dst, if it fits. -/
theorem sysOpenAct_ok {n : Nat} (hpath : s.StringAt (s.reg .a) n)
    (h : s.hostAnswerTo (s.openRequest n) = some (.ok num data)) :
    sysOpenAct dst s = storeDescriptor dst num (s.afterHostCall (s.openRequest n)) :=
  sysOpenAct_answered hp dst hpath h

/-! ## Without an answer -/

/-- R285. -/
theorem sysWriteAct_stalled (h : s.hostAnswerTo s.writeRequest = none) : sysWriteAct dst s = .error .stalled s := by
  rw [sysWriteAct, Act.bind_ok (readReg_eq hp .a), Act.bind_ok (readReg_eq hp .b), Act.bind_ok (readReg_eq hp .c),
    Act.bind_ok (readRamSlice_eq hp (clamp_le _ _))]
  exact Act.bind_error (hostWrite_stalled h)

/-- R285. -/
theorem sysReadAct_stalled (h : s.hostAnswerTo s.readRequest = none) : sysReadAct dst s = .error .stalled s := by
  rw [sysReadAct, Act.bind_ok (readReg_eq hp .a), Act.bind_ok (readReg_eq hp .b), Act.bind_ok (readReg_eq hp .c)]
  exact Act.bind_error (hostRead_stalled h)

/-- R285. -/
theorem sysOpenAct_stalled {n : Nat} (hpath : s.StringAt (s.reg .a) n)
    (h : s.hostAnswerTo (s.openRequest n) = none) : sysOpenAct dst s = .error .stalled s := by
  rw [sysOpenAct, Act.bind_ok (readReg_eq hp .a), Act.bind_ok (readString_of_stringAt hp hpath),
    Act.bind_ok (readReg_eq hp .b), Act.bind_ok (readReg_eq hp .c)]
  exact Act.bind_error (hostOpen_stalled h)

/-- R229: an unterminated path is found before any host call. -/
theorem sysOpenAct_unterminated (h : s.Unterminated (s.reg .a)) :
    sysOpenAct dst s = .error (.raised (.generic (.unterminatedString (s.reg .a)))) s := by
  rw [sysOpenAct, Act.bind_ok (readReg_eq hp .a)]
  exact Act.bind_error (readString_of_unterminated hp h)

end

/-! ## The obligations -/

/-- Settles O48: it holds, by the end of SYS write after a count. -/
theorem sysWriteStoresCount : Obligations.SysWriteStoresCount := by
  unfold Obligations.SysWriteStoresCount
  intro s dst rd num data hp hdst hans
  have hact := (sysWriteAct_ok hp dst hans).trans (writeId_some (s := s.afterHostCall _) hp hdst _)
  rw [narrowCount_eq_mod] at hact
  exact ⟨runInstr_ok hact, (exec_sys_write dst rfl).trans (runInstr_ok hact)⟩

/-- Settles O49: it holds, by the end of SYS read after data, which resolves dst only under the parameter. -/
theorem sysReadFillsRam : Obligations.SysReadFillsRam := by
  unfold Obligations.SysReadFillsRam
  intro s dst rd num data hp hdistinct hans received u t
  have hact : sysReadAct dst s = storeReadCount dst received.length u := sysReadAct_ok hp dst hans
  have hsys := exec_sys_read dst (sysNums_distinct hdistinct).1 rfl
  refine ⟨fun hset hdst => ?_, fun hunset => ?_⟩
  · have hend : exec (.sysRead dst) s = .next t := runInstr_ok <|
      calc sysReadAct dst s = writeId dst (narrowCount received.length) u := hact.trans (storeReadCount_set hset)
        _ = .ok () t := by rw [writeId_some (s := u) hp hdst, narrowCount_eq_mod]
    exact ⟨hend, hsys.trans hend⟩
  · have hend : exec (.sysRead dst) s = .next u := runInstr_ok (hact.trans (storeReadCount_unset hunset))
    exact ⟨hend, hsys.trans hend⟩

/-- R234: a path of bytes 0x01-0x7F reaches the host unchanged under both values of PATH_BYTES. -/
theorem hostPath_ascii (p : PathBytes) {path : List Byte} (h : ∀ b ∈ path, 0x01 ≤ b.toNat ∧ b.toNat ≤ 0x7F) :
    hostPath p path = path := by
  have hascii : path.all (fun b => b.ult 0x80) = true := by
    rw [List.all_eq_true]
    intro b hb
    have := (h b hb).2
    simp [BitVec.ult]
    omega
  cases p with
  | raw => rfl
  | other => exact if_pos hascii

/-- Settles O50: it holds, by the end of SYS open after a descriptor that fits. -/
theorem sysOpenStoresDescriptor : Obligations.SysOpenStoresDescriptor := by
  unfold Obligations.SysOpenStoresDescriptor
  intro s dst rd n desc data hp hdistinct hdst hpath hans hfits t
  obtain ⟨-, hopenWrite, hopenRead⟩ := sysNums_distinct hdistinct
  have hend : exec (.sysOpen dst) s = .next t := by
    refine runInstr_ok ((sysOpenAct_ok hp dst hpath hans).trans ?_)
    rw [storeDescriptor_fits hfits]
    exact writeId_some (s := s.afterHostCall _) hp hdst _
  exact ⟨hend, (exec_sys_open dst hopenWrite hopenRead rfl).trans hend, fun _ => rfl, fun p _ => hostPath_ascii p⟩

/-- Settles O52: it holds, by the two faults of SYS open that come before dst is resolved. -/
theorem sysOpenFaults : Obligations.SysOpenFaults := by
  unfold Obligations.SysOpenFaults
  intro s dst n desc data hp
  refine ⟨fun hnone => runInstr_raised (sysOpenAct_unterminated hp dst hnone), fun hpath hans hwide => ?_⟩
  refine runInstr_raised ((sysOpenAct_ok hp dst hpath hans).trans ?_)
  rw [storeDescriptor_tooWide hwide]
  rfl

/-- Settles O53: it holds, since dst is resolved last. -/
theorem badResultRegisterFaultsAfterHostCall : Obligations.BadResultRegisterFaultsAfterHostCall := by
  unfold Obligations.BadResultRegisterFaultsAfterHostCall
  intro s dst n num data hp hdst
  refine ⟨fun hans => ?sysWrite, fun hans hset => ?sysRead, fun hpath hans hfits => ?sysOpen⟩
  case sysWrite =>
    exact runInstr_raised ((sysWriteAct_ok hp dst hans).trans (writeId_none (s := s.afterHostCall _) hdst _))
  case sysRead =>
    refine runInstr_raised ((sysReadAct_ok hp dst hans).trans ?_)
    rw [storeReadCount_set (s := (s.afterHostCall _).withRamBytes _ _) hset]
    exact writeId_none (s := (s.afterHostCall _).withRamBytes _ _) hdst _
  case sysOpen =>
    refine runInstr_raised ((sysOpenAct_ok hp dst hpath hans).trans ?_)
    rw [storeDescriptor_fits hfits]
    exact writeId_none (s := s.afterHostCall _) hdst _

/-- Settles O54: it holds, since a script that begins with `never` answers no request. -/
theorem unansweredHostCallIsStuck : Obligations.UnansweredHostCallIsStuck := by
  unfold Obligations.UnansweredHostCallIsStuck
  intro s dst rest n hp hscript
  have hnever : ∀ req, s.hostAnswerTo req = none := fun req => by rw [State.hostAnswerTo, hscript]
  exact ⟨runInstr_stalled (sysWriteAct_stalled hp dst (hnever _)),
    runInstr_stalled (sysReadAct_stalled hp dst (hnever _)),
    fun hpath => runInstr_stalled (sysOpenAct_stalled hp dst hpath (hnever _))⟩

/-- Settles O55: it holds, since a count is narrowed and a descriptor is checked before it is stored. -/
theorem countsWrapDescriptorsFault : Obligations.CountsWrapDescriptorsFault := by
  unfold Obligations.CountsWrapDescriptorsFault
  intro s dst rd n hp hdst
  refine ⟨⟨_, writeId_some hp hdst _, ?_⟩, fun hwide => ?_, fun hfits => ⟨s.setReg rd (BitVec.ofNat 8 n), ?_, ?_⟩⟩
  · rw [State.reg_setReg_same]
    rfl
  · rw [storeDescriptor_tooWide hwide]
    rfl
  · rw [storeDescriptor_fits hfits, writeId_some hp hdst]
  · rw [State.reg_setReg_same, BitVec.toNat_ofNat, Nat.mod_eq_of_lt (Nat.lt_succ_of_le hfits)]

end Sys2Proof.Machine
end

section
/-! PROOF. Frames (20_memory.md R58): an instruction that writes at most one register has one of three ends, and its
frame is read off the end; the frames of STM and STK are those of their writes. -/

namespace Sys2Proof.Machine

/-- What holds of the next state that an equation gives holds of the next state there is. -/
theorem of_next_eq {o : Host.Outcome State Fault Refusal} {P : State → Prop} {t u : State} (hu : o = .next u)
    (ht : o = .next t) (h : P u) : P t :=
  Host.Outcome.next.inj (hu.symm.trans ht) ▸ h

/-! ## Ends that write at most one register -/

/-- How an action ends from `s` that writes at most one register of those in `w`. -/
inductive RegisterEnd (w : Reg → Prop) (s : State) : State → Prop where
  | unchanged : RegisterEnd w s s
  | fault (f : FaultClass) (o : Byte) : RegisterEnd w s (takeFault f o s)
  | write (r : Reg) (v : Byte) (hr : w r) : RegisterEnd w s (s.setReg r v)

theorem RegisterEnd.onlyBytesChange {w : Reg → Prop} {b : Nat → Prop} {s t : State} (h : RegisterEnd w s t)
    (hb : ∀ r, w r → b (s.regAddress r)) : OnlyBytesChange b s t := by
  cases h with
  | unchanged => exact .refl b s
  | fault f o => exact .taken b f o s
  | write r v hr => exact .setReg (hb r hr) v

/-- An operand's register, or its fault, written by an action that has read all it needs. -/
theorem writeId_end {s t : State} (hp : s.params.WF) {v x o : Byte} (h : settle o (writeId v x s) = .next t) :
    RegisterEnd (fun r => s.regOf v = some r) s t := by
  rcases hv : s.regOf v with _ | r
  · rw [writeId_none hv] at h
    cases h
    exact .fault _ o
  · rw [writeId_some hp hv] at h
    cases h
    exact .write r x rfl

section
variable {s t : State} {l r : Byte} (hp : s.params.WF)
include hp

theorem exec_imm_end (h : exec (.imm l r) s = .next t) : RegisterEnd (fun q => s.regOf l = some q) s t :=
  writeId_end hp h

theorem exec_add_end (h : exec (.add l r) s = .next t) : RegisterEnd (fun q => s.regOf l = some q) s t := by
  rcases hl : s.regOf l with _ | rl
  · exact of_next_eq (exec_add_unknown_left hl _) h (.fault ..)
  rcases hr : s.regOf r with _ | rr
  · exact of_next_eq (exec_add_unknown_right hl hr) h (.fault ..)
  · exact of_next_eq (exec_add hp hl hr) h (.write _ _ rfl)

theorem exec_ldm_end (h : exec (.ldm l r) s = .next t) : RegisterEnd (fun q => s.regOf l = some q) s t := by
  rcases hr : s.regOf r with _ | rr
  · exact of_next_eq (exec_ldm_unknown_right l hr) h (.fault ..)
  rcases hl : s.regOf l with _ | rl
  · exact of_next_eq (exec_ldm_unknown_left hp hl hr) h (.fault ..)
  · exact of_next_eq (exec_ldm hp hl hr) h (.write _ _ rfl)

theorem exec_cmp_end (h : exec (.cmp l r) s = .next t) : RegisterEnd (fun q => q = .f) s t := by
  rcases hl : s.regOf l with _ | rl
  · exact of_next_eq (exec_cmp_unknown_left hl _) h (.fault ..)
  rcases hr : s.regOf r with _ | rr
  · exact of_next_eq (exec_cmp_unknown_right hp hl hr) h (.fault ..)
  · exact of_next_eq (exec_cmp hp hl hr) h (.write _ _ rfl)

theorem exec_jmp_end (h : exec (.jmp l r) s = .next t) : RegisterEnd (fun q => q = .i) s t := by
  by_cases htaken : jumpTaken (s.reg .f) l = true
  · rcases hr : s.regOf r with _ | rr
    · exact of_next_eq (exec_jmp_unknown hp htaken hr) h (.fault ..)
    · exact of_next_eq (exec_jmp_of_taken hp htaken hr) h (.write _ _ rfl)
  · exact of_next_eq (exec_jmp_of_not_taken hp r htaken) h .unchanged

end

/-- An instruction whose only implicit write is `p`, and that names no destination, keeps every other register. -/
theorem exec_keepsReg_of_no_destination {i : Instr} {p q : Reg} {s t : State} (hp : s.params.WF)
    (h : exec i s = .next t) (hi : i.implicitWrites = [p]) (hd : i.destination = none) (hq : q ≠ p) :
    t.reg q = s.reg q :=
  exec_keepsReg i hp.1 (by simpa [hi] using hq) (by simp [hd]) h

/-- An instruction without implicit writes keeps every register that its destination `v` does not name. -/
theorem exec_keepsReg_of_destination {i : Instr} {v : Byte} {q : Reg} {s t : State} (hp : s.params.WF)
    (h : exec i s = .next t) (hi : i.implicitWrites = []) (hd : i.destination = some v) (hq : s.regOf v ≠ some q) :
    t.reg q = s.reg q :=
  exec_keepsReg i hp.1 (by simp [hi]) (fun w hw => Option.some.inj (hd.symm.trans hw) ▸ hq) h

/-- Settles O56: it holds, by the ends of the five forms, and by the registers each can write. -/
theorem registerFormsFrame : Obligations.RegisterFormsFrame := by
  unfold Obligations.RegisterFormsFrame
  intro s t l r hp
  have hdst : ∀ q, s.regOf l = some q → s.operandAddress l (s.regAddress q) := fun q hq => ⟨q, hq, rfl⟩
  refine ⟨fun h => ⟨(exec_imm_end hp h).onlyBytesChange hdst, fun _ => exec_keepsReg_of_destination hp h rfl rfl⟩,
    fun h => ⟨(exec_add_end hp h).onlyBytesChange hdst, fun _ => exec_keepsReg_of_destination hp h rfl rfl⟩,
    fun h => ⟨(exec_ldm_end hp h).onlyBytesChange hdst, fun _ => exec_keepsReg_of_destination hp h rfl rfl⟩,
    fun h => ⟨(exec_cmp_end hp h).onlyBytesChange ?_, fun _ => exec_keepsReg_of_no_destination hp h rfl rfl⟩,
    fun h => ⟨(exec_jmp_end hp h).onlyBytesChange ?_, fun _ => exec_keepsReg_of_no_destination hp h rfl rfl⟩⟩
  all_goals
    rintro q rfl
    rfl

/-- Settles O57: it holds, since STM faults before it writes, and then writes one byte of the RAM window. -/
theorem stmFrame : Obligations.StmFrame := by
  unfold Obligations.StmFrame
  intro s t dst src hp h
  refine ⟨?_, fun q => exec_keepsReg (.stm dst src) hp.1 (by simp [Instr.implicitWrites])
    (by simp [Instr.destination]) h⟩
  rcases hdst : s.regOf dst with _ | rd
  · exact of_next_eq (exec_stm_unknown_left hdst _) h (.taken ..)
  rcases hsrc : s.regOf src with _ | rs
  · exact of_next_eq (exec_stm_unknown_right hp hdst hsrc) h (.taken ..)
  · exact of_next_eq (exec_stm hp hdst hsrc) h (.setRam ⟨rd, rfl, rfl⟩ _)

/-! ## STK: the frame of each half -/

theorem OnlyBytesChange.trans {w : Nat → Prop} {s t u : State} (h : OnlyBytesChange w s t)
    (k : OnlyBytesChange w t u) : OnlyBytesChange w s u where
  cfg := k.cfg.trans h.cfg
  params := k.params.trans h.params
  status := by
    rcases k.status with hk | hk
    · exact h.status.imp hk.trans fun ⟨f, o, hf⟩ => ⟨f, o, hk.trans hf⟩
    · exact .inr hk
  host := ⟨k.host.1.trans h.host.1, k.host.2.trans h.host.2⟩
  bytes a ha := (k.bytes a ha).trans (h.bytes a ha)

/-- The frame of one action and then another, which starts where the first one ended. -/
theorem OnlyBytesChange.bind {α β : Type} {w : Nat → Prop} {x : Act α} {f : α → Act β} {s : State}
    (hx : OnlyBytesChange w s (finalState (x s)))
    (hf : ∀ a t, OnlyBytesChange w s t → OnlyBytesChange w t (finalState (f a t))) :
    OnlyBytesChange w s (finalState ((x >>= f) s)) := by
  rcases hr : x s with ⟨a, t⟩ | ⟨e, t⟩ <;> rw [hr] at hx
  · rw [Act.bind_ok hr]
    exact hx.trans (hf a t hx)
  · rw [Act.bind_error hr]
    exact hx

theorem OnlyBytesChange.runInstr {w : Nat → Prop} {act : Act Unit} {s t : State}
    (hact : OnlyBytesChange w s (finalState (act s))) (h : runInstr act s = .next t) : OnlyBytesChange w s t := by
  rcases settle_cases h with hr | ⟨f, u, hr, rfl⟩ <;> rw [hr] at hact
  · exact hact
  · exact hact.trans (.taken w f _ u)

theorem stkPush_frame {w : Nat → Prop} {s : State} (hp : s.params.WF) {push : Byte}
    (hs : push ≠ 0 → w (s.regAddress .s))
    (htop : push ≠ 0 → s.regOf push ≠ none → w (ramAddress (s.reg .s + 1))) :
    OnlyBytesChange w s (finalState (stkPush push s)) := by
  by_cases h0 : push = 0
  · rw [h0, stkPush_skipped]
    exact .refl w s
  rcases h : s.regOf push with _ | q
  · rw [stkPush_none hp h0 h]
    exact .setReg (hs h0) _
  · rw [stkPush_some hp h0 h]
    exact (OnlyBytesChange.setReg (hs h0) _).trans (.setRam (htop h0 (by simp [h])) _)

theorem stkPop_frame {w : Nat → Prop} {s : State} (hp : s.params.WF) {pop : Byte}
    (hs : pop ≠ 0 → w (s.regAddress .s)) (hd : pop ≠ 0 → ∀ r, s.regOf pop = some r → w (s.regAddress r)) :
    OnlyBytesChange w s (finalState (stkPop pop s)) := by
  by_cases h0 : pop = 0
  · rw [h0, stkPop_skipped]
    exact .refl w s
  rcases h : s.regOf pop with _ | r
  · rw [stkPop_none hp h0 h]
    exact .refl w s
  · rw [stkPop_some hp h0 h]
    exact (OnlyBytesChange.setReg (hd h0 r h) _).trans (.setReg (s := s.setReg r _) (hs h0) _)

/-- A pop that is skipped writes no register at all, whatever `none` would name. -/
theorem stkPop_keepsReg_of_imp {ids : RegIds} {q : Reg} (hq : q ≠ .s) {pop : Byte}
    (hd : pop ≠ 0 → regOfId ids pop ≠ some q) : (stkPop pop).KeepsReg ids q := by
  by_cases h0 : pop = 0
  · rw [h0]
    exact .pure ()
  · exact stkPop_keepsReg hq (hd h0)

/-- Settles O58: it holds, by the frames of the two halves, the second one from where the first one ended. -/
theorem stkFrame : Obligations.StkFrame := by
  unfold Obligations.StkFrame
  intro s t pop push hp h
  refine ⟨OnlyBytesChange.runInstr (.bind (stkPush_frame hp ?_ ?_) fun _ u hu => ?_) h, fun q hq hd => ?_⟩
  · exact fun h0 => .inl ⟨rfl, .inr h0⟩
  · exact fun h0 hpush => .inr (.inr ⟨h0, hpush, rfl⟩)
  · have haddr : ∀ r, u.regAddress r = s.regAddress r := fun r => by rw [State.regAddress, hu.params, State.regAddress]
    have hregOf : u.regOf pop = s.regOf pop := by rw [State.regOf, hu.cfg, State.regOf]
    refine stkPop_frame (hu.params ▸ hp) (fun h0 => .inl ⟨haddr .s, .inl h0⟩) fun h0 r hr => ?_
    exact .inr (.inl ⟨h0, r, hregOf ▸ hr, haddr r⟩)
  · exact runInstr_keepsReg ((stkPush_keepsReg hq push).bind fun _ => stkPop_keepsReg_of_imp hq hd) hp.1 h

end Sys2Proof.Machine
end

section
/-! PROOF. The frames of the syscalls (44_sys.md R221-R231): each ends like a write of dst, from the state in which its
one request was answered, or, where it makes none, from the state it started in. -/

namespace Sys2Proof.Machine

theorem RegisterEnd.noHostCall {w : Reg → Prop} {s t : State} (h : RegisterEnd w s t) : NoHostCall s t :=
  (h.onlyBytesChange (b := fun _ => True) fun _ _ => trivial).host

theorem RegisterEnd.mem_read {w : Reg → Prop} {s t : State} (h : RegisterEnd w s t) {a : Nat}
    (ha : ∀ r, w r → a ≠ s.regAddress r) : t.mem.read a = s.mem.read a :=
  (h.onlyBytesChange (b := fun a => ∃ r, w r ∧ a = s.regAddress r) fun r hr => ⟨r, hr, rfl⟩).bytes a
    fun ⟨r, hr, har⟩ => ha r hr har

/-- A request answered, and no other after it. -/
theorem NoHostCall.after {req : HostRequest} {s t u : State} (hu : OneHostCall req s u) (h : NoHostCall u t) :
    OneHostCall req s t :=
  ⟨h.1.trans hu.1, h.2.trans hu.2⟩

/-- Every instruction keeps the configuration and the parameters, and the status unless it faults. -/
theorem exec_session {i : Instr} {s t : State} (h : exec i s = .next t) :
    t.cfg = s.cfg ∧ t.params = s.params ∧ StatusKeptOrFaulted s t := by
  obtain ⟨u, heffect, rfl | ⟨f, rfl⟩⟩ := exec_does i h
  · exact ⟨heffect.cfg, heffect.params, .inl heffect.status⟩
  · exact ⟨heffect.cfg, heffect.params, .taken ..⟩

section
variable {s t : State} {dst : Byte} (hp : s.params.WF)
include hp

/-- R223: SYS write ends after its request was answered. -/
theorem exec_sysWrite_end (h : exec (.sysWrite dst) s = .next t) :
    RegisterEnd (fun r => s.regOf dst = some r) (s.afterHostCall s.writeRequest) t := by
  rcases hans : s.hostAnswerTo s.writeRequest with _ | ⟨_ | ⟨num, data⟩⟩
  · cases (runInstr_stalled (sysWriteAct_stalled hp dst hans)).symm.trans h
  · exact of_next_eq (runInstr_ok (sysWriteAct_answered hp dst hans)) h .unchanged
  · exact writeId_end (s := s.afterHostCall _) hp ((congrArg (settle _) (sysWriteAct_ok hp dst hans)).symm.trans h)

/-- The end of SYS open with a descriptor (R228). -/
theorem storeDescriptor_end {desc : Nat} {o : Byte} (h : settle o (storeDescriptor dst desc s) = .next t) :
    RegisterEnd (fun r => s.regOf dst = some r) s t := by
  by_cases hfits : desc ≤ 255
  · rw [storeDescriptor_fits hfits] at h
    exact writeId_end hp h
  · rw [storeDescriptor_tooWide (Nat.lt_of_not_le hfits)] at h
    cases h
    exact .fault ..

/-- R228: SYS open ends after its request was answered, or before it with an unterminated path. -/
theorem exec_sysOpen_end (h : exec (.sysOpen dst) s = .next t) :
    (∃ n, s.StringAt (s.reg .a) n ∧
        RegisterEnd (fun r => s.regOf dst = some r) (s.afterHostCall (s.openRequest n)) t) ∨
      (s.Unterminated (s.reg .a) ∧ RegisterEnd (fun r => s.regOf dst = some r) s t) := by
  rcases stringAt_or_unterminated s (s.reg .a) with ⟨n, hpath⟩ | hnone
  · refine .inl ⟨n, hpath, ?_⟩
    rcases hans : s.hostAnswerTo (s.openRequest n) with _ | ⟨_ | ⟨desc, data⟩⟩
    · cases (runInstr_stalled (sysOpenAct_stalled hp dst hpath hans)).symm.trans h
    · exact of_next_eq (runInstr_ok (sysOpenAct_answered hp dst hpath hans)) h .unchanged
    · exact storeDescriptor_end (s := s.afterHostCall _) hp
        ((congrArg (settle _) (sysOpenAct_ok hp dst hpath hans)).symm.trans h)
  · exact .inr ⟨hnone, of_next_eq (runInstr_raised (sysOpenAct_unterminated hp dst hnone)) h (.fault ..)⟩

/-- R226: SYS read ends after its request was answered and the received bytes were written. -/
theorem exec_sysRead_end {ans : HostAnswer} (hans : s.hostAnswerTo s.readRequest = some ans)
    (h : exec (.sysRead dst) s = .next t) :
    RegisterEnd (fun r => s.params.sysReadSetsDst = true ∧ s.regOf dst = some r)
      ((s.afterHostCall s.readRequest).withRamBytes (s.reg .b)
        ((HostAnswer.asData (clamp (s.reg .b) (s.reg .c)) ans).getD [])) t := by
  rcases ans with _ | ⟨num, data⟩
  · exact of_next_eq (runInstr_ok (sysReadAct_answered hp dst hans)) h .unchanged
  have h := (congrArg (settle _) (sysReadAct_ok hp dst hans)).symm.trans h
  by_cases hset : s.params.sysReadSetsDst = true
  · rw [storeReadCount_set (s := (s.afterHostCall _).withRamBytes _ _) hset] at h
    simp only [hset, true_and]
    exact writeId_end (s := (s.afterHostCall _).withRamBytes _ _) hp h
  · rw [storeReadCount_unset (s := (s.afterHostCall _).withRamBytes _ _) (Bool.eq_false_of_not_eq_true hset)] at h
    cases h
    exact .unchanged

/-- SYS write makes its one request. -/
theorem exec_sysWrite_host (h : exec (.sysWrite dst) s = .next t) : OneHostCall s.writeRequest s t :=
  (exec_sysWrite_end hp h).noHostCall.after (.answered ..)

/-- SYS open makes its one request, or none when its path has no end. -/
theorem exec_sysOpen_host (h : exec (.sysOpen dst) s = .next t) :
    (∃ n, s.StringAt (s.reg .a) n ∧ OneHostCall (s.openRequest n) s t) ∨
      (s.Unterminated (s.reg .a) ∧ NoHostCall s t) :=
  (exec_sysOpen_end hp h).imp (fun ⟨n, hpath, hend⟩ => ⟨n, hpath, hend.noHostCall.after (.answered ..)⟩)
    fun ⟨hnone, hend⟩ => ⟨hnone, hend.noHostCall⟩

theorem exec_sysWrite_mem_read (h : exec (.sysWrite dst) s = .next t) {a : Nat} (ha : ¬ s.operandAddress dst a) :
    t.mem.read a = s.mem.read a :=
  (exec_sysWrite_end hp h).mem_read fun r hr har => ha ⟨r, hr, har⟩

theorem exec_sysOpen_mem_read (h : exec (.sysOpen dst) s = .next t) {a : Nat} (ha : ¬ s.operandAddress dst a) :
    t.mem.read a = s.mem.read a := by
  rcases exec_sysOpen_end hp h with ⟨n, -, hend⟩ | ⟨-, hend⟩
  · exact hend.mem_read fun r hr har => ha ⟨r, hr, har⟩
  · exact hend.mem_read fun r hr har => ha ⟨r, hr, har⟩

/-- SYS with a number that is not read's writes no byte but dst's. -/
theorem exec_sys_mem_read {num : Byte} (hr : num ≠ s.cfg.sys.readNum) (h : exec (.sys num dst) s = .next t) {a : Nat}
    (ha : ¬ s.operandAddress dst a) : t.mem.read a = s.mem.read a := by
  by_cases hw : num = s.cfg.sys.writeNum
  · exact exec_sysWrite_mem_read hp ((exec_sys_write dst hw).symm.trans h) ha
  by_cases ho : num = s.cfg.sys.openNum
  · exact exec_sysOpen_mem_read hp ((exec_sys_open dst hw hr ho).symm.trans h) ha
  · exact of_next_eq (P := fun t => t.mem.read a = s.mem.read a)
      (exec_sys_unknown dst (by simp [SysNums.toList, hw, hr, ho])) h rfl

end

/-- Settles O59: it holds, by the ends of SYS write and SYS open, to which SYS dispatches, and by the fault of an
unknown number. -/
theorem sysWriteOpenFrame : Obligations.SysWriteOpenFrame := by
  unfold Obligations.SysWriteOpenFrame
  intro s t num dst i hp hi h opened
  obtain ⟨hcfg, hparams, hstatus⟩ := exec_session h
  refine ⟨hcfg, hparams, hstatus, fun a ha => ?memory, fun q hq => ?registers, ?sysWrite, ?sysOpen, ?sysNumWrite,
    ?sysNumOpen, ?sysUnknown⟩
  case memory =>
    rcases hi with rfl | rfl | ⟨rfl, hread⟩
    · exact exec_sysWrite_mem_read hp h ha
    · exact exec_sysOpen_mem_read hp h ha
    · exact exec_sys_mem_read hp hread h ha
  case registers =>
    rcases hi with rfl | rfl | ⟨rfl, -⟩ <;> exact exec_keepsReg_of_destination hp h rfl rfl hq
  case sysWrite =>
    rintro rfl
    exact exec_sysWrite_host hp h
  case sysOpen =>
    rintro rfl
    exact exec_sysOpen_host hp h
  case sysNumWrite =>
    rintro rfl hwrite
    exact exec_sysWrite_host hp ((exec_sys_write dst hwrite).symm.trans h)
  case sysNumOpen =>
    rintro rfl hwrite hopen
    have hread : num ≠ s.cfg.sys.readNum := by simpa using hi
    exact exec_sysOpen_host hp ((exec_sys_open dst hwrite hread hopen).symm.trans h)
  case sysUnknown =>
    rintro rfl hunknown
    exact of_next_eq (exec_sys_unknown dst hunknown) h (.refl s)

/-- Settles O60: it holds, by the end of SYS read and the run of bytes it starts from. -/
theorem sysReadFrame : Obligations.SysReadFrame := by
  unfold Obligations.SysReadFrame
  intro s t dst ans hp hans h received
  have hreceived : received = (HostAnswer.asData (clamp (s.reg .b) (s.reg .c)) ans).getD [] := by cases ans <;> rfl
  have hend := exec_sysRead_end hp hans h
  rw [← hreceived] at hend
  obtain ⟨hcfg, hparams, hstatus⟩ := exec_session h
  refine ⟨hcfg, hparams, hstatus, hend.noHostCall.after (.answered ..), fun a hdst hram => ?_,
    fun q hq => exec_keepsReg_of_destination hp h rfl rfl hq⟩
  rw [hend.mem_read fun r ⟨hset, hr⟩ har => hdst ⟨hset, r, hr, har⟩]
  exact Memory.read_writeBytes_outside _ (by unfold ramAddress ramBase at hram; omega)

end Sys2Proof.Machine
end
